-- ==== Sys2Proof/Word.lean ====
section
/-! DEFINITION. The byte, the only data width of CORE (00_scope.md R7), and the register index (10_state.md R20). -/

namespace Sys2Proof

/-- A byte, 0..255, unsigned (R7). Its `+`, `-` and `*` are the mod-256 operators of R8. -/
abbrev Byte := BitVec 8

/-- The index of a general register, R0..R7 (R20). -/
abbrev Reg := Fin 8

end Sys2Proof
end

