-- ==== Sys2Proof/Config.lean ====
section
/-! DEFINITION. The parameters of 00_scope.md R6 that fix sizes and reset values.
`NREG` and `XLEN` are the 8 of `Reg` and of `Byte` in Word.lean. The other parameters of R6 stand where a repair may reach them: the opcode map in Decode.lean, the flag positions in
Machine/Flags.lean, the stack-pointer index and the register-field check in Machine/Operands.lean.
CORE has no open value, so no constant here is without a body. -/

namespace Sys2Proof

/-- `MEMSIZE`, the number of bytes of memory (R6, R40). -/
def Config.memSize : Nat := 256

/-- `SP_RESET`, the reset value of R7 (R6, R33; the spec's decision D7, log entry 9). -/
def Config.spReset : Byte := 0x00

/-- `FL_RESET`, the reset value of FL (R6, R33; the spec's decision D6, log entry 3). -/
def Config.flReset : Byte := 0x00

/-- The reset value of pc, which is the entry point (R33, R201). -/
def Config.pcReset : Byte := 0x00

/-- What a byte of memory holds at reset (R33), and so what an address the memory list does not name reads as. -/
def Config.memReset : Byte := 0x00

end Sys2Proof
end

