-- ==== Sys2Proof/Syntax.lean ====
section
/-! DEFINITION. The ten instructions (30_encoding.md R63) with their operand bytes as the encoding holds them.
A register field is the WHOLE operand byte (R62), so the term keeps that byte: a byte above 7 is an ill-formed
instruction (WellFormed.lean), which decodes and then takes the BadRegister fault (40_dispatcher.md R82, R83). -/

namespace Sys2Proof

/-- The instruction set: one constructor per row of spec/opcode_table.json. -/
inductive Instr where
  /-- LDI Ra, imm: load immediate (R120). -/
  | ldi (ra imm : Byte)
  /-- PRN Ra: print register (R160). -/
  | prn (ra : Byte)
  /-- HLT: halt (R161). -/
  | hlt
  /-- MUL Ra, Rb: multiply registers (R105). -/
  | mul (ra rb : Byte)
  /-- POP Ra: pop to register (R121). -/
  | pop (ra : Byte)
  /-- PUSH Ra: push register (R122). -/
  | push (ra : Byte)
  /-- CMP Ra, Rb: compare registers (R106). -/
  | cmp (ra rb : Byte)
  /-- JMP Ra: jump to register (R140). -/
  | jmp (ra : Byte)
  /-- JEQ Ra: jump if equal (R141). -/
  | jeq (ra : Byte)
  /-- JNE Ra: jump if not equal (R142). -/
  | jne (ra : Byte)
  deriving DecidableEq, Repr

/-- What `Decode(op)` of R82 names: an instruction without its operand bytes. -/
inductive Op where
  | ldi | prn | hlt | mul | pop | push | cmp | jmp | jeq | jne
  deriving DecidableEq, Repr

/-- The four formats of R61. -/
inductive Format where
  /-- opcode only -/
  | n
  /-- opcode, ra -/
  | r
  /-- opcode, ra, imm -/
  | ri
  /-- opcode, ra, rb -/
  | rr
  deriving DecidableEq, Repr

/-- The instruction an `Instr` is, without its operands. -/
def Instr.op : Instr → Op
  | .ldi _ _ => .ldi
  | .prn _ => .prn
  | .hlt => .hlt
  | .mul _ _ => .mul
  | .pop _ => .pop
  | .push _ => .push
  | .cmp _ _ => .cmp
  | .jmp _ => .jmp
  | .jeq _ => .jeq
  | .jne _ => .jne

end Sys2Proof
end

