-- ==== Sys2Proof/WellFormed.lean ====
section
/-! DEFINITION. The one well-formedness check CORE has: every register field names a register
(30_encoding.md R62, 40_dispatcher.md R83). -/

namespace Sys2Proof

/-- `RegFields(ins)` of R83, in the order they are checked: nothing for format N, `[ra]` for R and RI, `[ra, rb]`
for RR. The immediate of LDI is no register field. -/
def Instr.regFields : Instr → List Byte
  | .ldi ra _ => [ra]
  | .prn ra => [ra]
  | .hlt => []
  | .mul ra rb => [ra, rb]
  | .pop ra => [ra]
  | .push ra => [ra]
  | .cmp ra rb => [ra, rb]
  | .jmp ra => [ra]
  | .jeq ra => [ra]
  | .jne ra => [ra]

/-- Every register field is at most 7 (R62). -/
def Instr.wellFormed (i : Instr) : Bool :=
  i.regFields.all (fun f => f.toNat ≤ 7)

end Sys2Proof
end

