-- ==== Sys2Proof/Decode.lean ====
section
/-! DEFINITION. The opcode map, the decoder and the encoder (30_encoding.md R60 to R67, 40_dispatcher.md R82). -/

namespace Sys2Proof

/-- The opcode map of R63. LDI's byte is the source's, the other nine are the spec's decision D4 (UNVERIFIED by the
source, log entry 7). -/
def Op.code : Op → Byte
  | .ldi => 0x82
  | .prn => 0x47
  | .hlt => 0x01
  | .mul => 0xA2
  | .pop => 0x46
  | .push => 0x45
  | .cmp => 0xA7
  | .jmp => 0x54
  | .jeq => 0x55
  | .jne => 0x56

/-- The format column of R63. -/
def Op.format : Op → Format
  | .ldi => .ri
  | .prn => .r
  | .hlt => .n
  | .mul => .rr
  | .pop => .r
  | .push => .r
  | .cmp => .rr
  | .jmp => .r
  | .jeq => .r
  | .jne => .r

/-- The number of operand bytes of a format (R61). -/
def Format.operands : Format → Nat
  | .n => 0
  | .r => 1
  | .ri => 2
  | .rr => 2

/-- An instruction's length in bytes, which the opcode alone tells (R60, R63). -/
def Op.length (o : Op) : Nat := o.format.operands + 1

/-- The rows of R63, in the table's order. -/
def opTable : List Op := [.ldi, .prn, .hlt, .mul, .pop, .push, .cmp, .jmp, .jeq, .jne]

/-- `Decode(op)` of R82: the whole byte against the table (R63). `none` is the spec's UNKNOWN (R65). -/
def decodeOp (b : Byte) : Option Op := opTable.find? (fun o => o.code == b)

/-- Operand assembly (R61, R62): byte 1 is ra, byte 2 is imm or rb. A byte the format does not use is ignored (R67). -/
def Op.withOperands (o : Op) (opA opB : Byte) : Instr :=
  match o with
  | .ldi => .ldi opA opB
  | .prn => .prn opA
  | .hlt => .hlt
  | .mul => .mul opA opB
  | .pop => .pop opA
  | .push => .push opA
  | .cmp => .cmp opA opB
  | .jmp => .jmp opA
  | .jeq => .jeq opA
  | .jne => .jne opA

/-- The machine's decoder, on the three bytes every step fetches (R81, R82). `none` is UNKNOWN. -/
def decodeWindow (op opA opB : Byte) : Option Instr :=
  (decodeOp op).map (fun o => o.withOperands opA opB)

/-- Why a string of bytes is not an instruction followed by the rest. -/
inductive DecodeError where
  /-- The first byte is no opcode of R63 (R65). -/
  | unknownOpcode (op : Byte)
  /-- The bytes end inside the instruction: `have_` operand bytes where the format needs `need`. Only a byte string can
  end so, never the core's memory, whose addresses wrap (R45). -/
  | truncated (need have_ : Nat)
  /-- There is no byte at all. -/
  | empty
  deriving DecidableEq, Repr

/-- The decoder of a byte string: one instruction and the bytes after it, or a rejection by name. -/
def decode : List Byte → Except DecodeError (Instr × List Byte)
  | [] => .error .empty
  | b :: rest =>
    match decodeOp b with
    | none => .error (.unknownOpcode b)
    | some o =>
      if rest.length < o.format.operands then .error (.truncated o.format.operands rest.length)
      else .ok (o.withOperands (rest.getD 0 0) (rest.getD 1 0), rest.drop o.format.operands)

/-- The operand bytes of an instruction in encoding order (R61, R68). -/
def Instr.operandBytes : Instr → List Byte
  | .ldi ra imm => [ra, imm]
  | .prn ra => [ra]
  | .hlt => []
  | .mul ra rb => [ra, rb]
  | .pop ra => [ra]
  | .push ra => [ra]
  | .cmp ra rb => [ra, rb]
  | .jmp ra => [ra]
  | .jeq ra => [ra]
  | .jne ra => [ra]

/-- The bytes of an instruction, opcode first (R45, R61). -/
def encode (i : Instr) : List Byte := i.op.code :: i.operandBytes

/-- Byte `k` of a table word: bits `8k+7 .. 8k` of the low `nbits` bits of `w`, bit 0 being the least significant bit
of the first byte; every bit above `nbits` is 0. -/
def tableByte (nbits w k : Nat) : Byte := BitVec.ofNat 8 ((w % 2 ^ nbits) >>> (8 * k))

/-- The instruction the decoder reads from a table word of `nbits` bits. -/
def decodeTableWord (nbits w : Nat) : Option Instr :=
  decodeWindow (tableByte nbits w 0) (tableByte nbits w 1) (tableByte nbits w 2)

end Sys2Proof
end

