-- ==== Sys2Proof/Machine/State.lean ====
section
/-! DEFINITION. The architectural state of CORE, complete by 10_state.md R34, its reset value (R33), and the reasons a
step can stop. -/

namespace Sys2Proof.Machine

/-- Memory: the bytes that differ from their reset value, as (address, byte) pairs. Canonical form: addresses strictly
rising, all below 256, no entry equal to the reset byte (`Memory.wf` in Machine/Ops.lean). An address not listed reads as
the reset byte, 0x00 (R33, R40). -/
abbrev Memory := List Host.Cell

/-- The fault causes of 60_exceptions.md R180. -/
inductive Cause where
  /-- Code 1: the fetched opcode byte is not in the table (R183). -/
  | unknownOpcode
  /-- Code 2: the ALU was given a tag outside ADD, MUL, CMP (R185). -/
  | unsupportedAluOperation
  /-- Code 3: a register field holds a byte above 7 (R184). -/
  | badRegister
  deriving DecidableEq, Repr

/-- The run status of 10_state.md R29. -/
inductive Status where
  /-- The core takes steps. -/
  | running
  /-- The run ended by HLT (R161). -/
  | halted
  /-- The run ended by a fault (R181). -/
  | faulted (c : Cause)
  deriving DecidableEq, Repr

/-- The state tuple of R34: R0..R7, pc, FL, status, memory, out. -/
structure State where
  /-- The general registers R0..R7 (R20). R7 is the stack pointer (R22). -/
  regs : Vector Byte 8
  /-- The program counter: the address of the instruction being executed (R24). -/
  pc : Byte
  /-- The flags register: E bit 0, G bit 1, L bit 2 (R26). -/
  fl : Byte
  /-- The run status (R29). -/
  status : Status
  /-- The 256 bytes of memory (R40). -/
  mem : Memory
  /-- The output stream, first byte emitted first (R30). -/
  out : List Byte
  deriving DecidableEq, Repr

/-- Why `step` stops with a fault. -/
inductive Fault where
  /-- Raised by `step` of a core whose status is FAULTED(c): the run aborted and the core has no further step until
  reset (R80, R182). The faulting step itself is a next state (R181). Safe: the core takes no step there either. -/
  | terminated (c : Cause)
  deriving DecidableEq, Repr

/-- Why `step` or `exec` is refused. -/
inductive Refusal where
  /-- Raised by an arm of `exec` whose instruction has no meaning yet; no arm is left so. Safe. -/
  | notModelled (mnemonic : String)
  /-- Raised by `step` of a core whose status is HALTED: the run ended normally and the core has no further step until
  reset (R80). HALTED is final and no fault (92 D14). Safe: the core takes no step there either. -/
  | halted
  deriving DecidableEq, Repr

/-- The machine right after reset (R33, R200, R201): every register 0, pc 0, FL 0, RUNNING, memory all 0, out empty. -/
def State.reset : State where
  regs := (Vector.replicate 8 0x00).set 7 Config.spReset
  pc := Config.pcReset
  fl := Config.flReset
  status := .running
  mem := []
  out := []

end Sys2Proof.Machine
end

