-- ==== Sys2Proof/Machine/Ops.lean ====
section
/-! DEFINITION. The named operations over registers, memory, pc, FL and out (00_scope.md R9), taking a fault
(60_exceptions.md R181), fetching (40_dispatcher.md R81) and when a step exists (R80). -/

namespace Sys2Proof.Machine

/-! ### Memory (20_memory.md R42) -/

/-- The byte at an address. An address not listed holds the reset byte (R33, R49). -/
def Memory.read : Memory → Nat → Byte
  | [], _ => Config.memReset
  | (k, v) :: m, a => if k = a then v else Memory.read m a

/-- Memory with nothing listed at `a`, so that `a` reads as the reset byte. -/
def Memory.forget (m : Memory) (a : Nat) : Memory := m.filter (fun c => c.1 != a)

/-- Lists `v` at `a`, before the first entry with a higher address. -/
def Memory.place : Memory → Nat → Byte → Memory
  | [], a, v => [(a, v)]
  | (k, w) :: m, a, v => if a < k then (a, v) :: (k, w) :: m else (k, w) :: Memory.place m a v

/-- Stores byte `v` at `a` and keeps the canonical form: writing the reset byte removes the entry. -/
def Memory.write (m : Memory) (a : Nat) (v : Byte) : Memory :=
  if v = Config.memReset then m.forget a else (m.forget a).place a v

/-- The canonical form of a memory all of whose addresses are at least `lo`. -/
def Memory.wfFrom : Nat → Memory → Bool
  | _, [] => true
  | lo, (k, v) :: m => decide (lo ≤ k) && decide (k < Config.memSize) && (v != Config.memReset) && Memory.wfFrom (k + 1) m

/-- The canonical form: addresses strictly rising and below 256, no entry equal to the reset byte. -/
def Memory.wf (m : Memory) : Bool := m.wfFrom 0

/-- Writes bytes at consecutive addresses from `a` on. -/
def Memory.writeAll : Memory → Nat → List Byte → Memory
  | m, _, [] => m
  | m, a, b :: bs => Memory.writeAll (m.write a b) (a + 1) bs

/-! ### State accessors (00_scope.md R9) -/

/-- `x[i]`. -/
def State.reg (s : State) (r : Reg) : Byte := s.regs[r]

/-- `x[i] <- v`. -/
def State.setReg (s : State) (r : Reg) (v : Byte) : State := { s with regs := s.regs.set r v }

/-- `MemRead(a, 1)`. Every 8-bit value is an address (20_memory.md R44). -/
def State.read (s : State) (a : Byte) : Byte := s.mem.read a.toNat

/-- `MemWrite(a, 1, v)`. -/
def State.write (s : State) (a v : Byte) : State := { s with mem := s.mem.write a.toNat v }

/-- `pc <- t`. -/
def State.setPc (s : State) (t : Byte) : State := { s with pc := t }

/-- `pc <- pc +8 n`, wrapping at the top of memory (10_state.md R25). -/
def State.advance (s : State) (n : Byte) : State := s.setPc (s.pc + n)

/-- `FL <- v`. -/
def State.setFl (s : State) (v : Byte) : State := { s with fl := v }

/-- `status <- t`. -/
def State.setStatus (s : State) (t : Status) : State := { s with status := t }

/-- `emit(v)`: appends a byte to the output stream (10_state.md R30). -/
def State.emit (s : State) (v : Byte) : State := { s with out := s.out ++ [v] }

/-! ### Faults (60_exceptions.md R181) -/

/-- `raise Fault(c)`: the step ends with status FAULTED(c) and writes nothing else; pc stays at the opcode byte (R181,
the spec's decision D10). A fault has no return beside it: no handler runs and only reset leaves FAULTED (R182, R189). -/
def raise (c : Cause) (s : State) : Host.Outcome State Fault Refusal := .next (s.setStatus (.faulted c))

/-! ### The dispatcher's parts (40_dispatcher.md) -/

/-- Fetch and decode (R81, R82): the bytes at pc, pc + 1 and pc + 2 are read whatever the opcode, at addresses that wrap.
`none` is UNKNOWN. -/
def fetchInstr (s : State) : Option Instr := decodeWindow (s.read s.pc) (s.read (s.pc + 1)) (s.read (s.pc + 2))

/-- A step exists only while status is RUNNING (R80). A HALTED core refuses the step, a FAULTED one answers its fault
(92 D14; DESIGN CHOICE, log entry 2). -/
def whileRunning (s : State) (body : Host.Outcome State Fault Refusal) : Host.Outcome State Fault Refusal :=
  match s.status with
  | .running => body
  | .halted => .refused .halted
  | .faulted c => .fault (.terminated c)

/-- The state with the three bytes of a table word at pc, pc + 1 and pc + 2, RUNNING so that a step exists (DESIGN
CHOICE, log entry 15). -/
def placeInstr (s : State) (nbits w : Nat) : State :=
  (((s.write s.pc (tableByte nbits w 0)).write (s.pc + 1) (tableByte nbits w 1)).write
    (s.pc + 2) (tableByte nbits w 2)).setStatus .running

end Sys2Proof.Machine
end

