-- ==== Sys2Proof/Machine/Operands.lean ====
section
/-! DEFINITION. The operand forms: the register field with its check (30_encoding.md R62, 40_dispatcher.md R83) and the
implicit stack pointer (10_state.md R22). The immediate field is the whole byte, used as is (R62), and needs no operation.
The only data-memory mode is register-indirect through R7 (42_load_stack.md R124). -/

namespace Sys2Proof.Machine

/-- `SP_INDEX`: R7 is the stack pointer (R22, the spec's decision D8). -/
def sp : Reg := 7

/-- The register a register-field byte names: 0..7 name R0..R7, 8..255 name none (R62). -/
def regOf (f : Byte) : Option Reg := if h : f.toNat < 8 then some ⟨f.toNat, h⟩ else none

/-- The register-field byte that names a register. -/
def regByte (r : Reg) : Byte := BitVec.ofNat 8 r.val

/-- The register check of R83 on one field: go on with the register it names, or take BadRegister with nothing written
(R184). A meaning checks its fields in the order ra, rb before it writes anything. -/
def withReg (f : Byte) (s : State) (body : Reg → Host.Outcome State Fault Refusal) : Host.Outcome State Fault Refusal :=
  match regOf f with
  | some r => body r
  | none => raise .badRegister s

/-- The address PUSH stores to: SP -8 1 (42_load_stack.md R122). -/
def pushAddr (s : State) : Byte := s.reg sp - 1

/-- The address POP reads: SP before the POP (42_load_stack.md R121). -/
def popAddr (s : State) : Byte := s.reg sp

end Sys2Proof.Machine
end

