-- ==== Sys2Proof/Machine/Flags.lean ====
section
/-! DEFINITION. The flags register FL (10_state.md R26) and the flag update of a compare (41_alu.md R103). The positions
are the spec's decision D5 (UNVERIFIED by the source, log entry 8). -/

namespace Sys2Proof.Machine

/-- FL with only E set (bit 0). -/
def flE : Byte := 0x01

/-- FL with only G set (bit 1). -/
def flG : Byte := 0x02

/-- FL with only L set (bit 2). -/
def flL : Byte := 0x04

/-- The defined bits of FL; bits 7..3 always read 0 (R26). -/
def flDefined : Byte := 0x07

/-- What FL reads as: its three defined bits (R26). -/
def State.readFl (s : State) : Byte := s.fl &&& flDefined

/-- FL.E, the only bit an instruction reads (10_state.md R28). -/
def State.flagE (s : State) : Bool := s.readFl.getLsbD 0

/-- The flag update of CMP: exactly one of E, L, G, by unsigned comparison (R103). -/
def cmpFlags (a b : Byte) : Byte := if a = b then flE else if a < b then flL else flG

/-- The values FL can hold: no flag (before the first CMP) or exactly one (10_state.md R27). -/
def flLegal (v : Byte) : Bool := v == 0x00 || v == flE || v == flG || v == flL

end Sys2Proof.Machine
end

