-- ==== Sys2Proof/Machine/Alu.lean ====
section
/-! DEFINITION. The ALU as a pure function (41_alu.md R100 to R104) and the two instructions that call it, MUL (R105) and
CMP (R106). -/

namespace Sys2Proof.Machine

/-- The operation tag given to the ALU. -/
inductive AluTag where
  | add
  | mul
  | cmp
  /-- Any tag outside ADD, MUL, CMP, told apart by a number (DESIGN CHOICE, log entry 16). -/
  | other (n : Nat)
  deriving DecidableEq, Repr

/-- What the ALU gives: a result for register op_a, or a new FL, where the operation has one (R100). -/
structure AluResult where
  result : Option Byte
  flagUpdate : Option Byte
  deriving DecidableEq, Repr

/-- `ALU(op, a, b)`. ADD and MUL wrap mod 256 and update no flag (R101, R102); CMP has no result (R103); any other tag is
a fault (R104). -/
def alu : AluTag → Byte → Byte → Except Cause AluResult
  | .add, a, b => .ok ⟨some (a + b), none⟩
  | .mul, a, b => .ok ⟨some (a * b), none⟩
  | .cmp, a, b => .ok ⟨none, some (cmpFlags a b)⟩
  | .other _, _, _ => .error .unsupportedAluOperation

/-- Writes an ALU answer: the result to register op_a, the flag update to FL, each where there is one (R100). -/
def applyAlu (ra : Reg) (r : AluResult) (s : State) : State :=
  let s1 := match r.result with
    | some v => s.setReg ra v
    | none => s
  match r.flagUpdate with
  | some f => s1.setFl f
  | none => s1

/-- An ALU instruction: call the ALU on x[ra], x[rb], write its answer and advance once by 3 (40_dispatcher.md R84). -/
def runAlu (tag : AluTag) (ra rb : Reg) (s : State) : Host.Outcome State Fault Refusal :=
  match alu tag (s.reg ra) (s.reg rb) with
  | .ok r => .next ((applyAlu ra r s).advance 3)
  | .error c => raise c s

/-- MUL Ra, Rb (R105). -/
def execMul (ra rb : Byte) (s : State) : Host.Outcome State Fault Refusal :=
  withReg ra s fun a => withReg rb s fun b => runAlu .mul a b s

/-- CMP Ra, Rb (R106). -/
def execCmp (ra rb : Byte) (s : State) : Host.Outcome State Fault Refusal :=
  withReg ra s fun a => withReg rb s fun b => runAlu .cmp a b s

end Sys2Proof.Machine
end

