-- ==== Sys2Proof/Machine/Branch.lean ====
section
/-! DEFINITION. JMP, JEQ and JNE (43_branch.md R140 to R143): absolute, register-indirect, no delay slot. -/

namespace Sys2Proof.Machine

/-- The common form of the three jumps: to x[ra] with no default advance, or past the two bytes (R143, 40_dispatcher.md
R84). The register field is checked whether or not the jump is taken (R83). -/
def jumpIf (taken : Bool) (ra : Byte) (s : State) : Host.Outcome State Fault Refusal :=
  withReg ra s fun r => .next (if taken then s.setPc (s.reg r) else s.advance 2)

/-- JMP Ra (R140). -/
def execJmp (ra : Byte) (s : State) : Host.Outcome State Fault Refusal := jumpIf true ra s

/-- JEQ Ra: taken iff FL.E = 1 (R141). -/
def execJeq (ra : Byte) (s : State) : Host.Outcome State Fault Refusal := jumpIf s.flagE ra s

/-- JNE Ra: taken iff FL.E = 0 (R142). -/
def execJne (ra : Byte) (s : State) : Host.Outcome State Fault Refusal := jumpIf (!s.flagE) ra s

end Sys2Proof.Machine
end

