-- ==== Sys2Proof/Machine/LoadStack.lean ====
section
/-! DEFINITION. LDI, POP and PUSH (42_load_stack.md R120 to R122). The statements take effect in the order written
(00_scope.md R10). -/

namespace Sys2Proof.Machine

/-- LDI Ra, imm: x[ra] <- imm (R120). -/
def execLdi (ra imm : Byte) (s : State) : Host.Outcome State Fault Refusal :=
  withReg ra s fun r => .next ((s.setReg r imm).advance 3)

/-- POP Ra: x[ra] <- memory[SP], THEN x[7] <- x[7] +8 1, so POP R7 increments the byte it loaded (R121). -/
def execPop (ra : Byte) (s : State) : Host.Outcome State Fault Refusal :=
  withReg ra s fun r =>
    let s1 := s.setReg r (s.read (popAddr s))
    let s2 := s1.setReg sp (s1.reg sp + 1)
    .next (s2.advance 2)

/-- PUSH Ra: x[7] <- x[7] -8 1, THEN memory[x[7]] <- x[ra], so PUSH R7 stores the decremented SP (R122). -/
def execPush (ra : Byte) (s : State) : Host.Outcome State Fault Refusal :=
  withReg ra s fun r =>
    let s1 := s.setReg sp (pushAddr s)
    let s2 := s1.write (s1.reg sp) (s1.reg r)
    .next (s2.advance 2)

end Sys2Proof.Machine
end

