-- ==== Sys2Proof/Machine/System.lean ====
section
/-! DEFINITION. PRN and HLT (44_system.md R160, R161). -/

namespace Sys2Proof.Machine

/-- PRN Ra: emit(x[ra]) (R160). -/
def execPrn (ra : Byte) (s : State) : Host.Outcome State Fault Refusal :=
  withReg ra s fun r => .next ((s.emit (s.reg r)).advance 2)

/-- HLT: status <- HALTED, pc <- pc +8 1 (R161; the pc is the spec's decision D18, log entry 11). -/
def execHlt (s : State) : Host.Outcome State Fault Refusal := .next ((s.setStatus .halted).advance 1)

end Sys2Proof.Machine
end

