-- ==== Sys2Proof/Machine/Step.lean ====
section
/-! DEFINITION. One step of the dispatcher (40_dispatcher.md R80 to R85). -/

namespace Sys2Proof.Machine

/-- `Step(s)` of R85: fetch three bytes, decode, raise UnknownOpcode or execute. The register check of R83 is each
meaning's first act. -/
def step (s : State) : Host.Outcome State Fault Refusal :=
  whileRunning s
    (match fetchInstr s with
    | some i => exec i s
    | none => raise .unknownOpcode s)

/-- The state whose next step fetches and runs the instruction of a table word. It stands for a load of that instruction
from outside (R194, R202; log entry 15). -/
def State.withFetchWord (s : State) (nbits w : Nat) : State := placeInstr s nbits w

end Sys2Proof.Machine
end

