-- ==== Sys2Proof/Machine/Assembler.lean ====
section
/-! DEFINITION. The assembly syntax (30_encoding.md R68, R69): a line as a list of characters, read and written. It
carries no semantics (92 D20). What the grammar leaves open is log entry 19. -/

namespace Sys2Proof.Machine

/-- The mnemonic of an instruction (R63); there are no others (R69). -/
def mnemonicChars : Op → List Char
  | .ldi => ['L', 'D', 'I']
  | .prn => ['P', 'R', 'N']
  | .hlt => ['H', 'L', 'T']
  | .mul => ['M', 'U', 'L']
  | .pop => ['P', 'O', 'P']
  | .push => ['P', 'U', 'S', 'H']
  | .cmp => ['C', 'M', 'P']
  | .jmp => ['J', 'M', 'P']
  | .jeq => ['J', 'E', 'Q']
  | .jne => ['J', 'N', 'E']

/-- The digit characters, by value. -/
def digitChars : List Char := ['0', '1', '2', '3', '4', '5', '6', '7', '8', '9']

/-- The characters of hex digits, by value: the digits, then `A` to `F`. -/
def hexUpper : List Char := digitChars ++ ['A', 'B', 'C', 'D', 'E', 'F']

/-- The characters of hex digits, by value: the digits, then `a` to `f`. -/
def hexLower : List Char := digitChars ++ ['a', 'b', 'c', 'd', 'e', 'f']

/-- The place of a character in a list of digits, which is its value. -/
def digitIn (ds : List Char) (c : Char) : Option Nat := ds.findIdx? (· == c)

/-- The value of a hex digit of either case (DESIGN CHOICE, log entry 19). -/
def hexDigit (c : Char) : Option Nat := (digitIn hexUpper c).orElse fun _ => digitIn hexLower c

/-- The value of digits in a base, most significant first, `acc` being what stands before them. -/
def digitsValue (base : Nat) (digit : Char → Option Nat) : Nat → List Char → Option Nat
  | acc, [] => some acc
  | acc, c :: cs =>
    match digit c with
    | some d => if d < base then digitsValue base digit (acc * base + d) cs else none
    | none => none

/-- A number of at least one digit, at most 255. -/
def byteIn (base : Nat) (digit : Char → Option Nat) (cs : List Char) : Option Byte :=
  if cs.isEmpty then none
  else match digitsValue base digit 0 cs with
    | some n => if n ≤ 255 then some (BitVec.ofNat 8 n) else none
    | none => none

/-- An immediate: `0x` hex, `0b` binary, or unsigned decimal 0..255 (R68). -/
def readImm : List Char → Option Byte
  | '0' :: 'x' :: cs => byteIn 16 hexDigit cs
  | '0' :: 'b' :: cs => byteIn 2 (digitIn digitChars) cs
  | cs => byteIn 10 (digitIn digitChars) cs

/-- A register: `R0` to `R7` (R68), as its register-field byte. -/
def readReg : List Char → Option Byte
  | ['R', c] =>
    match digitIn digitChars c with
    | some d => if d < 8 then some (BitVec.ofNat 8 d) else none
    | none => none
  | _ => none

/-- Drops one blank, which may follow the comma (R68). -/
def dropBlank : List Char → List Char
  | ' ' :: cs => cs
  | cs => cs

/-- Two operands separated by a comma that one blank may follow (R68). -/
def readTwo (first second : List Char → Option Byte) (cs : List Char) : Option (Byte × Byte) :=
  match cs.dropWhile (· != ',') with
  | ',' :: rest =>
    match first (cs.takeWhile (· != ',')), second (dropBlank rest) with
    | some a, some b => some (a, b)
    | _, _ => none
  | _ => none

/-- The operands of a line, in encoding order, by the format (R68). `none` stands for a line with nothing after its
mnemonic. -/
def readOperands (o : Op) : Option (List Char) → Option Instr
  | none => if o.format = .n then some (o.withOperands 0 0) else none
  | some cs =>
    match o.format with
    | .n => none
    | .r => (readReg cs).map (fun a => o.withOperands a 0)
    | .ri => (readTwo readReg readImm cs).map (fun p => o.withOperands p.1 p.2)
    | .rr => (readTwo readReg readReg cs).map (fun p => o.withOperands p.1 p.2)

/-- Reads a line: a mnemonic, and after one blank its operands (R68). -/
def readAsm (l : List Char) : Option Instr :=
  match opTable.find? (fun o => mnemonicChars o == l.takeWhile (· != ' ')) with
  | none => none
  | some o =>
    match l.dropWhile (· != ' ') with
    | [] => readOperands o none
    | _ :: cs => readOperands o (some cs)

/-- One decimal digit. -/
def digitChar (n : Nat) : Char := digitChars.getD n '?'

/-- A byte in decimal without leading zeros. -/
def decChars (b : Byte) : List Char :=
  let n := b.toNat
  if n < 10 then [digitChar n]
  else if n < 100 then [digitChar (n / 10), digitChar (n % 10)]
  else [digitChar (n / 100), digitChar (n / 10 % 10), digitChar (n % 10)]

/-- Writes an instruction in the source's style, `LDI R0,8` (R68). A register field above 7 has no spelling; it is
written as its number and `readAsm` refuses the line. -/
def writeAsm (i : Instr) : List Char :=
  let r (f : Byte) : List Char := 'R' :: decChars f
  match i with
  | .hlt => mnemonicChars .hlt
  | .ldi ra imm => mnemonicChars .ldi ++ ' ' :: (r ra ++ ',' :: decChars imm)
  | .mul ra rb => mnemonicChars .mul ++ ' ' :: (r ra ++ ',' :: r rb)
  | .cmp ra rb => mnemonicChars .cmp ++ ' ' :: (r ra ++ ',' :: r rb)
  | .prn ra => mnemonicChars .prn ++ ' ' :: r ra
  | .pop ra => mnemonicChars .pop ++ ' ' :: r ra
  | .push ra => mnemonicChars .push ++ ' ' :: r ra
  | .jmp ra => mnemonicChars .jmp ++ ' ' :: r ra
  | .jeq ra => mnemonicChars .jeq ++ ' ' :: r ra
  | .jne ra => mnemonicChars .jne ++ ' ' :: r ra

end Sys2Proof.Machine
end

