-- ==== Sys2Proof/Machine/HostPort.lean ====
section
/-! DEFINITION. What the host can do to the core and reads from it (60_exceptions.md R194, R195, R209) and the load
contract (70_reset_and_hazards.md R202, R204). The host's moves and readings stand beside the machine; no step calls them. -/

namespace Sys2Proof.Machine

/-- The loader's error (R186). The core never starts. -/
inductive LoadFailure where
  /-- The program file is absent or unreadable (R186). -/
  | fileUnavailable
  /-- Line `n` (from 0) is neither skipped nor eight binary digits: refused (93 U11; DESIGN CHOICE, log entry 18). -/
  | malformedLine (n : Nat)
  /-- The image has more than 256 bytes (R204). -/
  | imageTooLong (n : Nat)
  deriving DecidableEq, Repr

/-- `load(image)`: memory[i] <- image[i] from address 0 on; an image of more than 256 bytes is a LoadFailure (R202,
R204). -/
def load (image : List Byte) (s : State) : Except LoadFailure State :=
  if image.length ≤ Config.memSize then .ok { s with mem := s.mem.writeAll 0 image }
  else .error (.imageTooLong image.length)

/-- Reset, then load: the state in which a program of the given image starts (R205). -/
def boot (image : List Byte) : Except LoadFailure State := load image State.reset

/-- The core as the host drives it: its state, and whether a step was taken since the last reset. -/
structure Session where
  core : State
  stepped : Bool
  deriving DecidableEq, Repr

/-- The moves of the host that change the core (R194). No other exists (92 D22, log entry 13). -/
inductive HostMove where
  | reset
  | load (image : List Byte)
  | step
  deriving DecidableEq, Repr

/-- Why a move is not carried out. -/
inductive HostReject where
  /-- The image does not fit (R204). -/
  | loadFailure (f : LoadFailure)
  /-- A load is allowed only before the first step (R194). -/
  | loadAfterStep
  /-- A step of a FAULTED core (R80). -/
  | stopped (f : Fault)
  /-- A step of a HALTED core (R80). -/
  | refused (r : Refusal)
  deriving DecidableEq, Repr

/-- One move of the host (R194). Reset is allowed any time and nothing survives it (R196, R200). -/
def hostMove : HostMove → Session → Except HostReject Session
  | .reset, _ => .ok ⟨State.reset, false⟩
  | .load image, h =>
    if h.stepped then .error .loadAfterStep
    else match load image h.core with
      | .ok s => .ok ⟨s, false⟩
      | .error f => .error (.loadFailure f)
  | .step, h =>
    match step h.core with
    | .next s => .ok ⟨s, true⟩
    | .fault f => .error (.stopped f)
    | .refused r => .error (.refused r)

/-- The number of a fault cause (R180, the spec's decision D11). -/
def Cause.code : Cause → Nat
  | .unknownOpcode => 1
  | .unsupportedAluOperation => 2
  | .badRegister => 3

/-- The message the host reports for a cause: given for the first two (R183, R185), not for BadRegister (log entry 12). -/
def Cause.message : Cause → Option String
  | .unknownOpcode => some "unknown command"
  | .unsupportedAluOperation => some "unsupported ALU operation"
  | .badRegister => none

/-- The exit status the host maps a status to: none while the run goes on, 0 for HALTED, 1 for a fault (R195). -/
def Status.exitStatus : Status → Option Nat
  | .running => none
  | .halted => some 0
  | .faulted _ => some 1

/-- The exit status of a run that a LoadFailure kept from starting (R186). -/
def LoadFailure.exitStatus (_ : LoadFailure) : Nat := 1

/-- A run has ended when status is not RUNNING (R209). -/
def State.ended (s : State) : Bool := s.status != .running

/-- The final observation of a run: the whole state, and only of an ended one (R209). -/
def State.finalObservation (s : State) : Option State := if s.ended then some s else none

end Sys2Proof.Machine
end

