-- ==== Sys2Proof/Machine/Loader.lean ====
section
/-! DEFINITION. The program file format (70_reset_and_hazards.md R203), host side. A file is a list of lines, a line a
list of characters without its line end. What the spec leaves open here is log entry 18. -/

namespace Sys2Proof.Machine

/-- White space at the end of a line (DESIGN CHOICE: blank, tab, carriage return; log entry 18). -/
def isBlank (c : Char) : Bool := c == ' ' || c == '\t' || c == '\r'

/-- A line without its comment and without the white space before the comment or the line end. -/
def lineBody (l : List Char) : List Char := ((l.takeWhile (· != '#')).reverse.dropWhile isBlank).reverse

/-- The value of binary digits, most significant first; none if a character is no binary digit. -/
def binValue : List Char → Option Nat
  | [] => some 0
  | c :: cs =>
    if c == '0' then binValue cs
    else if c == '1' then (binValue cs).map (fun n => 2 ^ cs.length + n)
    else none

/-- A line's byte: `some none` for a skipped line (blank or comment only), `some (some b)` for eight binary digits,
`none` for any other line. -/
def lineByte (l : List Char) : Option (Option Byte) :=
  let body := lineBody l
  if body.isEmpty then some none
  else if body.length = 8 then (binValue body).map (fun n => some (BitVec.ofNat 8 n))
  else none

/-- The image of the lines, the first of them being line `n`: each line not skipped gives one byte. -/
def imageFrom : Nat → List (List Char) → Except LoadFailure (List Byte)
  | _, [] => .ok []
  | n, l :: ls =>
    match lineByte l with
    | none => .error (.malformedLine n)
    | some none => imageFrom (n + 1) ls
    | some (some b) =>
      match imageFrom (n + 1) ls with
      | .ok bs => .ok (b :: bs)
      | .error f => .error f

/-- The loader's whole job: read the file if there is one, then reset and load the image (R186, R202, R203). -/
def bootFile : Option (List (List Char)) → Except LoadFailure State
  | none => .error .fileUnavailable
  | some ls =>
    match imageFrom 0 ls with
    | .ok image => boot image
    | .error f => .error f

end Sys2Proof.Machine
end

