-- ==== Sys2Proof/Safety.lean ====
section
/-! DEFINITION. The invariant of the machine and what counts as a good run (40_dispatcher.md R86, 92 D14). -/

namespace Sys2Proof.Machine

/-- The invariant: memory is in its canonical form and FL holds no flag or exactly one (10_state.md R26, R27). -/
def State.Inv (s : State) : Prop := s.mem.wf = true ∧ flLegal s.fl = true

/-- `k` steps from `s` lead to `t` (R86). -/
def RunsTo (s : State) (k : Nat) (t : State) : Prop := Host.Core.run Sys2Proof.core k s = .next t

/-- The run from `s` ends by HLT: the one normal end (R86, 92 D14). -/
def Completes (s : State) : Prop := ∃ k t, RunsTo s k t ∧ t.status = .halted

/-- The run from `s` ends by a fault (R86). -/
def Aborts (s : State) (c : Cause) : Prop := ∃ k t, RunsTo s k t ∧ t.status = .faulted c

/-- The run from `s` never ends (R86, 93 U5). -/
def RunsForever (s : State) : Prop := ∀ k, ∃ t, RunsTo s k t ∧ t.status = .running

/-- A safe run never reaches a fault. -/
def SafeRun (s : State) : Prop := ∀ c, ¬ Aborts s c

end Sys2Proof.Machine
end

