-- ==== Sys2Proof/Certificates/Slice0/Obligations.lean ====
section
/-! DEFINITION. The statements about CORE. Each docstring names the rule of spec/ it formalises. -/

namespace Sys2Proof.Claims

open Sys2Proof.Machine

/-- A step of a RUNNING core whose byte at pc is `code` executes the instruction `f` builds of the two bytes after it,
fetched at addresses that wrap (40_dispatcher.md R81). -/
def StepRuns (code : Byte) (f : Byte → Byte → Instr) : Prop :=
  ∀ s : State, s.status = .running → s.read s.pc = code →
    step s = exec (f (s.read (s.pc + 1)) (s.read (s.pc + 2))) s

/-- `exec i s` takes BadRegister: status FAULTED(3) and nothing else written (60_exceptions.md R181, R184). -/
def TakesBadRegister (i : Instr) (s : State) : Prop :=
  exec i s = .next { s with status := .faulted .badRegister }

/-- Every byte of memory reads as before. -/
def SameMemory (s t : State) : Prop := ∀ a, t.read a = s.read a

/-- FL, status and out are as before. -/
def SameFlStatusOut (s t : State) : Prop := t.fl = s.fl ∧ t.status = s.status ∧ t.out = s.out

/-- pc moved forward by `n` bytes, modulo 256 (10_state.md R25). -/
def Advanced (n : Nat) (s t : State) : Prop := t.pc.toNat = (s.pc.toNat + n) % 256

/-- The registers the table of 10_state.md R21 lets an instruction write. -/
def MayWrite (i : Instr) (q : Reg) : Prop :=
  match i with
  | .ldi ra _ => ra = regByte q
  | .mul ra _ => ra = regByte q
  | .pop ra => ra = regByte q ∨ q = 7
  | .push _ => q = 7
  | .prn _ => False
  | .hlt => False
  | .cmp _ _ => False
  | .jmp _ => False
  | .jeq _ => False
  | .jne _ => False

/-- Two states that agree but for FL, whose E bits agree. -/
def AgreeButGL (s t : State) : Prop :=
  t = { s with fl := t.fl } ∧ t.fl.getLsbD 0 = s.fl.getLsbD 0

/-- A byte as eight binary digits, most significant first (70_reset_and_hazards.md R203). -/
def binaryDigits (b : Byte) : List Char :=
  [7, 6, 5, 4, 3, 2, 1, 0].map (fun k => if b.getLsbD k then '1' else '0')

end Sys2Proof.Claims

open Sys2Proof Sys2Proof.Machine Sys2Proof.Claims

/-! ### The ten instructions, each rule whole: encoding, decoding at any pc, effect, frame, BadRegister -/

/-- R120, LDI Ra, imm. Every immediate is legal. -/
def Obligations.LdiLoadsImmediate : Prop :=
  (∀ ra imm, encode (.ldi ra imm) = [0x82, ra, imm]) ∧
  StepRuns 0x82 (fun a b => .ldi a b) ∧
  (∀ (r : Reg) (imm : Byte) (s : State), ∃ t, exec (.ldi (regByte r) imm) s = .next t ∧
    t.reg r = imm ∧ (∀ q, q ≠ r → t.reg q = s.reg q) ∧
    Advanced 3 s t ∧ SameFlStatusOut s t ∧ SameMemory s t) ∧
  (∀ (ra imm : Byte) (s : State), 7 < ra.toNat → TakesBadRegister (.ldi ra imm) s)

/-- R121, POP Ra, with its order: POP R7 increments the byte it loaded. -/
def Obligations.PopLoadsThenIncrementsSp : Prop :=
  (∀ ra, encode (.pop ra) = [0x46, ra]) ∧
  StepRuns 0x46 (fun a _ => .pop a) ∧
  (∀ (r : Reg) (s : State), ∃ t, exec (.pop (regByte r)) s = .next t ∧
    (r ≠ 7 → t.reg r = s.read (s.reg 7) ∧ (t.reg 7).toNat = ((s.reg 7).toNat + 1) % 256) ∧
    (r = 7 → (t.reg 7).toNat = ((s.read (s.reg 7)).toNat + 1) % 256) ∧
    (∀ q, q ≠ r → q ≠ 7 → t.reg q = s.reg q) ∧
    Advanced 2 s t ∧ SameFlStatusOut s t ∧ SameMemory s t) ∧
  (∀ (ra : Byte) (s : State), 7 < ra.toNat → TakesBadRegister (.pop ra) s)

/-- R122, PUSH Ra, with its order: PUSH R7 stores the decremented SP. The stored byte is at `pushAddr s`, which is
SP - 1 modulo 256; every other byte of memory is unchanged. -/
def Obligations.PushDecrementsThenStores : Prop :=
  (∀ ra, encode (.push ra) = [0x45, ra]) ∧
  StepRuns 0x45 (fun a _ => .push a) ∧
  (∀ (r : Reg) (s : State), ∃ t, exec (.push (regByte r)) s = .next t ∧
    ((pushAddr s).toNat : Int) = (((s.reg 7).toNat : Int) - 1) % 256 ∧
    t.reg 7 = pushAddr s ∧
    (r ≠ 7 → t.read (pushAddr s) = s.reg r) ∧
    (r = 7 → t.read (pushAddr s) = pushAddr s) ∧
    (∀ a, a ≠ pushAddr s → t.read a = s.read a) ∧
    (∀ q, q ≠ 7 → t.reg q = s.reg q) ∧
    Advanced 2 s t ∧ SameFlStatusOut s t) ∧
  (∀ (ra : Byte) (s : State), 7 < ra.toNat → TakesBadRegister (.push ra) s)

/-- R105, MUL Ra, Rb: the low byte of the unsigned product; x[rb] and FL unchanged. -/
def Obligations.MulWritesLowByteOfProduct : Prop :=
  (∀ ra rb, encode (.mul ra rb) = [0xA2, ra, rb]) ∧
  StepRuns 0xA2 (fun a b => .mul a b) ∧
  (∀ (a b : Reg) (s : State), ∃ t, exec (.mul (regByte a) (regByte b)) s = .next t ∧
    (t.reg a).toNat = ((s.reg a).toNat * (s.reg b).toNat) % 256 ∧
    (∀ q, q ≠ a → t.reg q = s.reg q) ∧
    Advanced 3 s t ∧ SameFlStatusOut s t ∧ SameMemory s t) ∧
  (∀ (ra rb : Byte) (s : State), 7 < ra.toNat ∨ 7 < rb.toNat → TakesBadRegister (.mul ra rb) s)

/-- R106 with R103, CMP Ra, Rb: FL is 0x01, 0x04 or 0x02 by the unsigned order, whatever it was; no register changes. -/
def Obligations.CmpSetsExactlyOneFlag : Prop :=
  (∀ ra rb, encode (.cmp ra rb) = [0xA7, ra, rb]) ∧
  StepRuns 0xA7 (fun a b => .cmp a b) ∧
  (∀ (a b : Reg) (s : State), ∃ t, exec (.cmp (regByte a) (regByte b)) s = .next t ∧
    ((s.reg a).toNat = (s.reg b).toNat → t.fl = 0x01) ∧
    ((s.reg a).toNat < (s.reg b).toNat → t.fl = 0x04) ∧
    ((s.reg b).toNat < (s.reg a).toNat → t.fl = 0x02) ∧
    (∀ q, t.reg q = s.reg q) ∧ t.status = s.status ∧ t.out = s.out ∧
    Advanced 3 s t ∧ SameMemory s t) ∧
  (∀ (ra rb : Byte) (s : State), 7 < ra.toNat ∨ 7 < rb.toNat → TakesBadRegister (.cmp ra rb) s)

/-- R140, JMP Ra: pc is x[ra], with no default advance. -/
def Obligations.JmpGoesToRegister : Prop :=
  (∀ ra, encode (.jmp ra) = [0x54, ra]) ∧
  StepRuns 0x54 (fun a _ => .jmp a) ∧
  (∀ (r : Reg) (s : State), ∃ t, exec (.jmp (regByte r)) s = .next t ∧
    t.pc = s.reg r ∧ (∀ q, t.reg q = s.reg q) ∧ SameFlStatusOut s t ∧ SameMemory s t) ∧
  (∀ (ra : Byte) (s : State), 7 < ra.toNat → TakesBadRegister (.jmp ra) s)

/-- R141, JEQ Ra: taken exactly when FL[0] = 1; the register field is checked either way. -/
def Obligations.JeqJumpsWhenEqual : Prop :=
  (∀ ra, encode (.jeq ra) = [0x55, ra]) ∧
  StepRuns 0x55 (fun a _ => .jeq a) ∧
  (∀ (r : Reg) (s : State), ∃ t, exec (.jeq (regByte r)) s = .next t ∧
    (s.fl.getLsbD 0 = true → t.pc = s.reg r) ∧
    (s.fl.getLsbD 0 = false → Advanced 2 s t) ∧
    (∀ q, t.reg q = s.reg q) ∧ SameFlStatusOut s t ∧ SameMemory s t) ∧
  (∀ (ra : Byte) (s : State), 7 < ra.toNat → TakesBadRegister (.jeq ra) s)

/-- R142, JNE Ra: taken exactly when FL[0] = 0; the register field is checked either way. -/
def Obligations.JneJumpsWhenNotEqual : Prop :=
  (∀ ra, encode (.jne ra) = [0x56, ra]) ∧
  StepRuns 0x56 (fun a _ => .jne a) ∧
  (∀ (r : Reg) (s : State), ∃ t, exec (.jne (regByte r)) s = .next t ∧
    (s.fl.getLsbD 0 = false → t.pc = s.reg r) ∧
    (s.fl.getLsbD 0 = true → Advanced 2 s t) ∧
    (∀ q, t.reg q = s.reg q) ∧ SameFlStatusOut s t ∧ SameMemory s t) ∧
  (∀ (ra : Byte) (s : State), 7 < ra.toNat → TakesBadRegister (.jne ra) s)

/-- R160, PRN Ra: the byte is appended to out. -/
def Obligations.PrnAppendsRegister : Prop :=
  (∀ ra, encode (.prn ra) = [0x47, ra]) ∧
  StepRuns 0x47 (fun a _ => .prn a) ∧
  (∀ (r : Reg) (s : State), ∃ t, exec (.prn (regByte r)) s = .next t ∧
    t.out = s.out ++ [s.reg r] ∧ (∀ q, t.reg q = s.reg q) ∧ t.fl = s.fl ∧ t.status = s.status ∧
    Advanced 2 s t ∧ SameMemory s t) ∧
  (∀ (ra : Byte) (s : State), 7 < ra.toNat → TakesBadRegister (.prn ra) s)

/-- R161, HLT: status HALTED and pc + 1; no further step; the host sees success. -/
def Obligations.HltEndsTheRun : Prop :=
  encode .hlt = [0x01] ∧
  StepRuns 0x01 (fun _ _ => .hlt) ∧
  (∀ s : State, ∃ t, exec .hlt s = .next t ∧
    t.status = .halted ∧ Advanced 1 s t ∧ (∀ q, t.reg q = s.reg q) ∧ t.fl = s.fl ∧ t.out = s.out ∧
    SameMemory s t ∧ (∀ u, step t ≠ .next u) ∧ t.status.exitStatus = some 0)

/-! ### Encoding -/

/-- Decoding an encoded instruction gives it back, with every operand byte at every value and any bytes after it. -/
def Obligations.DecodeOfEncode : Prop :=
  ∀ (i : Instr) (rest : List Byte), decode (encode i ++ rest) = .ok (i, rest)

/-- The other direction: bytes that decode are the encoding of what they decode to, followed by the rest. -/
def Obligations.EncodeOfDecode : Prop :=
  ∀ (bs : List Byte) (i : Instr) (rest : List Byte), decode bs = .ok (i, rest) → bs = encode i ++ rest

/-- R67 and R81: the three-byte decoder reads an instruction from its own bytes and ignores the operand bytes it does
not use. -/
def Obligations.WindowReadsOwnBytesOnly : Prop :=
  ∀ (i : Instr) (rest tail : List Byte) (op a b : Byte),
    encode i ++ rest = op :: a :: b :: tail → decodeWindow op a b = some i

/-- R63 and R65: a window is rejected exactly when its first byte is none of the ten opcodes, whatever the other bytes. -/
def Obligations.UnknownOpcodesAreRejected : Prop :=
  ∀ op a b : Byte, decodeWindow op a b = none ↔
    op ∉ [0x82, 0x47, 0x01, 0xA2, 0x46, 0x45, 0xA7, 0x54, 0x55, (0x56 : Byte)]

/-- Words written out bit by bit from R61 and R63, one of each family; 0x00 and 0xA0 are unknown (R65). -/
def Obligations.SampleWordsDecode : Prop :=
  decodeWindow 0b10000010 0b00000011 0b00101010 = some (.ldi 3 42) ∧
  decodeWindow 0b01000101 0b00000111 0b11111111 = some (.push 7) ∧
  decodeWindow 0b10100111 0b00000100 0b00000001 = some (.cmp 4 1) ∧
  decodeWindow 0b01010110 0b00000010 0b00000000 = some (.jne 2) ∧
  decodeWindow 0b00000001 0b11111111 0b11111111 = some .hlt ∧
  decodeWindow 0x00 0x00 0x00 = none ∧
  decodeWindow 0xA0 0x00 0x01 = none

/-- A step after `withFetchWord` runs the instruction of the table word. That it makes the core RUNNING is the model's
choice (log entry 15). -/
def Obligations.TableWordRuns : Prop :=
  ∀ (s : State) (nbits w : Nat) (i : Instr), decodeTableWord nbits w = some i →
    step (s.withFetchWord nbits w) = exec i (s.withFetchWord nbits w)

/-! ### The dispatcher -/

/-- R85: a step of a RUNNING core is the execution of what the three bytes at pc decode to. The step adds nothing around
it: each instruction moves pc itself (R84). -/
def Obligations.StepRunsDecodedInstruction : Prop :=
  ∀ (s : State) (i : Instr), s.status = .running →
    decodeWindow (s.read s.pc) (s.read (s.pc + 1)) (s.read (s.pc + 2)) = some i → step s = exec i s

/-- The same from the encoder's side: wherever the bytes of an instruction stand at pc, wrapping at the top of memory
(R45, R46), the step runs it. -/
def Obligations.EncodedInstructionRuns : Prop :=
  ∀ (s : State) (i : Instr), s.status = .running →
    (∀ (k : Nat) (h : k < (encode i).length), s.read (s.pc + BitVec.ofNat 8 k) = (encode i)[k]) → step s = exec i s

/-- R183: an opcode byte outside the ten raises UnknownOpcode, whatever the operand bytes (R187); the byte stays readable
at pc; the host reports "unknown command" and a failure status. -/
def Obligations.UnknownOpcodeFaults : Prop :=
  ∀ s : State, s.status = .running →
    s.read s.pc ∉ [0x82, 0x47, 0x01, 0xA2, 0x46, 0x45, 0xA7, 0x54, 0x55, (0x56 : Byte)] →
    ∃ t, step s = .next t ∧ t = { s with status := .faulted .unknownOpcode } ∧ t.read t.pc = s.read s.pc ∧
      Cause.unknownOpcode.code = 1 ∧ Cause.unknownOpcode.message = some "unknown command" ∧
      t.status.exitStatus = some 1

/-- R184: a register field above 7 raises BadRegister before any write, for every instruction and every such field. -/
def Obligations.BadRegisterFaults : Prop :=
  Cause.badRegister.code = 3 ∧
  ∀ (i : Instr) (s : State), (∃ f ∈ i.regFields, 7 < f.toNat) →
    exec i s = .next { s with status := .faulted .badRegister }

/-- R181, and the order of R187: a step that ends FAULTED wrote status and nothing else, pc is at the faulting opcode,
and the cause is UnknownOpcode where the bytes do not decode and BadRegister where they decode to an instruction with a
bad register field. UnsupportedALUOperation never arises (R104). -/
def Obligations.FaultsArePrecise : Prop :=
  ∀ (s t : State) (c : Cause), step s = .next t → t.status = .faulted c →
    t = { s with status := .faulted c } ∧
    ((c = .unknownOpcode ∧ fetchInstr s = none) ∨
      (c = .badRegister ∧ ∃ i, fetchInstr s = some i ∧ i.wellFormed = false))

/-- R190: every well-formed instruction completes, in every state; only HLT changes status. -/
def Obligations.WellFormedInstructionsComplete : Prop :=
  ∀ (i : Instr) (s : State), i.wellFormed = true →
    ∃ t, exec i s = .next t ∧ (i = .hlt → t.status = .halted) ∧ (i ≠ .hlt → t.status = s.status)

/-- R80: a step has a next state exactly while the core is RUNNING. How the other steps are answered is the model's choice
(log entry 2): HALTED is refused, FAULTED is a fault. -/
def Obligations.StepExistsIffRunning : Prop :=
  ∀ s : State, ((∃ t, step s = .next t) ↔ s.status = .running) ∧
    (s.status = .halted → step s = .refused .halted) ∧
    (∀ c, s.status = .faulted c → step s = .fault (.terminated c))

/-- R29 and R86: a step leaves the core RUNNING, halts it exactly when it fetched HLT, or faults it. -/
def Obligations.OnlyHltHalts : Prop :=
  ∀ s t : State, step s = .next t → (t.status = .halted ↔ fetchInstr s = some .hlt)

/-- A jump to its own address never ends the run (the corner case of R140; R86). -/
def Obligations.SelfJumpNeverEnds : Prop :=
  ∀ (s : State) (r : Reg), s.status = .running → s.read s.pc = 0x54 → s.read (s.pc + 1) = regByte r →
    s.reg r = s.pc → ∀ k, RunsTo s k s

/-- R86: every run ends by HLT, ends by a fault, or never ends; and only one of these, with one cause. -/
def Obligations.RunsEndOneWay : Prop :=
  ∀ s : State, (Completes s ∨ (∃ c, Aborts s c) ∨ RunsForever s) ∧
    (Completes s → SafeRun s ∧ ¬ RunsForever s) ∧
    (∀ c, Aborts s c → ¬ RunsForever s ∧ ∀ d, Aborts s d → d = c)

/-! ### Whole-machine frames -/

/-- R27: CMP alone writes FL, and a CMP of registers leaves exactly one flag. -/
def Obligations.OnlyCmpWritesFl : Prop :=
  ∀ (i : Instr) (s t : State), exec i s = .next t →
    ((∀ a b : Reg, i ≠ .cmp (regByte a) (regByte b)) → t.fl = s.fl) ∧
    (∀ a b : Reg, i = .cmp (regByte a) (regByte b) → t.fl = 0x01 ∨ t.fl = 0x02 ∨ t.fl = 0x04)

/-- R43: PUSH alone writes memory, and only the byte at `pushAddr`. -/
def Obligations.OnlyPushWritesMemory : Prop :=
  ∀ (i : Instr) (s t : State), exec i s = .next t →
    ((∀ r : Reg, i ≠ .push (regByte r)) → SameMemory s t) ∧ (∀ a, a ≠ pushAddr s → t.read a = s.read a)

/-- R30 and R160: only PRN writes out, and it appends one byte. -/
def Obligations.OnlyPrnEmits : Prop :=
  ∀ (i : Instr) (s t : State), exec i s = .next t →
    t.out = s.out ∨ ∃ r : Reg, i = .prn (regByte r) ∧ t.out = s.out ++ [s.reg r]

/-- R21: a register changes only where the table says the instruction writes it. -/
def Obligations.RegistersChangePerTable : Prop :=
  ∀ (i : Instr) (s t : State) (q : Reg), exec i s = .next t → t.reg q ≠ s.reg q → MayWrite i q

/-- R28: no program can tell the G and L bits apart. Runs of two states that differ only in FL, not in E, stay so. -/
def Obligations.FlagsGAndLAreUnobservable : Prop :=
  ∀ (s t : State), AgreeButGL s t → ∀ (k : Nat) (s' : State), RunsTo s k s' →
    ∃ t', RunsTo t k t' ∧ AgreeButGL s' t'

/-- R30: the core never reads out. Bytes put before the stream stay before it and change nothing else. -/
def Obligations.OutputIsNeverRead : Prop :=
  ∀ (s t : State) (k : Nat) (before : List Byte), RunsTo s k t →
    RunsTo { s with out := before ++ s.out } k { t with out := before ++ t.out }

/-! ### Memory and the invariant -/

/-- R42: MemWrite sets one byte and changes nothing else. -/
def Obligations.MemWriteSetsOneByte : Prop :=
  ∀ (s : State) (a v : Byte), (s.write a v).read a = v ∧ (∀ b, b ≠ a → (s.write a v).read b = s.read b) ∧
    (s.write a v).regs = s.regs ∧ (s.write a v).pc = s.pc ∧ (s.write a v).fl = s.fl ∧
    (s.write a v).status = s.status ∧ (s.write a v).out = s.out

/-- Memories in canonical form that read alike are the same list. -/
def Obligations.CanonicalMemoryIsUnique : Prop :=
  ∀ m n : Memory, m.wf = true → n.wf = true → (∀ a, m.read a = n.read a) → m = n

/-- The invariant holds at reset: memory in canonical form, FL with at most one flag. (That FL has none there is
`ResetSetsEverything`.) -/
def Obligations.ResetMeetsInvariant : Prop := State.reset.Inv

/-- Every step keeps the invariant: memory in canonical form, FL with at most one flag and its other bits 0 (R26, R27). -/
def Obligations.StepKeepsInvariant : Prop :=
  ∀ s t : State, s.Inv → step s = .next t → t.Inv

/-- A load keeps the invariant. -/
def Obligations.LoadKeepsInvariant : Prop :=
  ∀ (image : List Byte) (s t : State), s.Inv → load image s = .ok t → t.Inv

/-- R51 and R207: the fetch after a PUSH sees the pushed byte, at whichever of its three addresses it stands. -/
def Obligations.FetchSeesPushedByte : Prop :=
  ∀ (s t : State) (r : Reg), exec (.push (regByte r)) s = .next t →
    let stored := if r = 7 then pushAddr s else s.reg r
    let seen := fun a => if a = pushAddr s then stored else s.read a
    fetchInstr t = decodeWindow (seen (s.pc + 2)) (seen (s.pc + 3)) (seen (s.pc + 4))

/-- R123: PUSH Ra, then anything that leaves R7 and memory[SP] alone, then POP Rb, moves x[ra] to x[rb] and restores R7. -/
def Obligations.PushThenPopRoundTrips : Prop :=
  ∀ (s : State) (ra rb : Reg), ra ≠ 7 → rb ≠ 7 →
    ∃ t, exec (.push (regByte ra)) s = .next t ∧
      ∀ t' : State, t'.reg 7 = t.reg 7 → t'.read (t'.reg 7) = t.read (t.reg 7) →
        ∃ u, exec (.pop (regByte rb)) t' = .next u ∧ u.reg rb = s.reg ra ∧ u.reg 7 = s.reg 7

/-! ### The ALU -/

/-- R102 and R103, and R101's ADD beside them: sums and products modulo 256 with no flag update; a compare gives no result
and one flag by the unsigned order. -/
def Obligations.AluComputesModulo256 : Prop :=
  ∀ a b : Byte,
    (∃ r, alu .add a b = .ok ⟨some r, none⟩ ∧ r.toNat = (a.toNat + b.toNat) % 256) ∧
    (∃ r, alu .mul a b = .ok ⟨some r, none⟩ ∧ r.toNat = (a.toNat * b.toNat) % 256) ∧
    (∃ f, alu .cmp a b = .ok ⟨none, some f⟩ ∧ (a.toNat = b.toNat → f = 0x01) ∧ (a.toNat < b.toNat → f = 0x04) ∧
      (b.toNat < a.toNat → f = 0x02))

/-- R104 and R185: any other tag is the fault UnsupportedALUOperation. The numbering of tags is the model's choice (log
entry 16). -/
def Obligations.OtherAluTagsFault : Prop :=
  Cause.unsupportedAluOperation.code = 2 ∧
  Cause.unsupportedAluOperation.message = some "unsupported ALU operation" ∧
  ∀ (n : Nat) (a b : Reg) (s : State),
    runAlu (.other n) a b s = .next { s with status := .faulted .unsupportedAluOperation }

/-! ### Reset, load and the host -/

/-- R200: reset is allowed in every state and sets every piece of state; nothing survives it. That it also clears the bit
the model keeps beside the core, whether a step was taken, is the model's (log entry 20). -/
def Obligations.ResetSetsEverything : Prop :=
  ∀ h : Session, ∃ s, hostMove .reset h = .ok ⟨s, false⟩ ∧ (∀ r, s.reg r = 0x00) ∧ s.pc = 0x00 ∧ s.fl = 0x00 ∧
    s.status = .running ∧ (∀ a, s.read a = 0x00) ∧ s.out = []

/-- R202: an image of at most 256 bytes is in memory from address 0 on, the rest of memory and the other state as reset
left them; R204: a longer one is a LoadFailure. -/
def Obligations.LoadPlacesTheImage : Prop :=
  ∀ image : List Byte,
    (image.length ≤ 256 → ∃ s, boot image = .ok s ∧
      (∀ (a : Byte) (h : a.toNat < image.length), s.read a = image[a.toNat]) ∧
      (∀ a : Byte, image.length ≤ a.toNat → s.read a = 0x00) ∧
      s.regs = State.reset.regs ∧ s.pc = 0x00 ∧ s.fl = 0x00 ∧ s.status = .running ∧ s.out = []) ∧
    (256 < image.length → boot image = .error (.imageTooLong image.length))

/-- R194: when the host's moves are allowed and what they leave, from every session. A load after the first step is turned
away; before it, one that fits is carried out, also a second time, and one of more than 256 bytes is a LoadFailure (R204); a
step is carried out exactly while RUNNING, gives the core the next state of `step` and sets the bit; a step that does not
exist changes nothing and is turned away with its reason (log entry 2). The bit that tells 'before the
first step', and that a second load is allowed, are the model's reading (DEDUCED, log entry 20). -/
def Obligations.HostMovesWhenAllowed : Prop :=
  ∀ (h : Session) (image : List Byte),
    (h.stepped = true → hostMove (.load image) h = .error .loadAfterStep) ∧
    (h.stepped = false → image.length ≤ 256 → ∃ s, hostMove (.load image) h = .ok ⟨s, false⟩ ∧
      load image h.core = .ok s) ∧
    (h.stepped = false → 256 < image.length →
      hostMove (.load image) h = .error (.loadFailure (.imageTooLong image.length))) ∧
    ((∃ h', hostMove .step h = .ok h') ↔ h.core.status = .running) ∧
    (∀ s', step h.core = .next s' → hostMove .step h = .ok ⟨s', true⟩) ∧
    (∀ f, step h.core = .fault f → hostMove .step h = .error (.stopped f)) ∧
    (∀ r, step h.core = .refused r → hostMove .step h = .error (.refused r))

/-- R195 and R209: a run has ended exactly when the host sees an exit status; its final observation is the whole state;
the exit status is 0 for HALTED and 1 for a fault. -/
def Obligations.EndedRunsHaveAnExitStatus : Prop :=
  ∀ s : State,
    (s.status.exitStatus = none ↔ ∃ t, step s = .next t) ∧
    (s.status.exitStatus = some 0 ↔ s.status = .halted) ∧
    (s.status.exitStatus = some 1 ↔ ∃ c, s.status = .faulted c) ∧
    (s.finalObservation = some s ↔ s.status ≠ .running)

/-- R203: eight binary digits are a byte, most significant first, and a file of such lines is the image of their bytes in
order; white space at the end of a line, and a comment with the blanks before it, change nothing, so commented lines give
their bytes too; a file with no malformed line is the bytes of its lines that are not skipped, in order; a line that is empty, blank or only a comment is skipped, and a
skipped line anywhere does not change the image. Which characters are blank, and that a line of them alone is a blank line,
is the model's choice (log entry 18). -/
def Obligations.LoaderReadsTheFormat : Prop :=
  (∀ b : Byte, lineByte (binaryDigits b) = some (some b)) ∧
  (∀ l blanks comment : List Char, '#' ∉ l → (∀ c ∈ blanks, isBlank c = true) →
    lineByte (l ++ blanks ++ '#' :: comment) = lineByte l) ∧
  (∀ l blanks : List Char, (∀ c ∈ blanks, isBlank c = true) → lineByte (l ++ blanks) = lineByte l) ∧
  (∀ blanks : List Char, (∀ c ∈ blanks, isBlank c = true) → lineByte blanks = some none) ∧
  (∀ blanks comment : List Char, (∀ c ∈ blanks, isBlank c = true) →
    lineByte (blanks ++ '#' :: comment) = some none) ∧
  (∀ (n : Nat) (bs : List Byte), imageFrom n (bs.map binaryDigits) = .ok bs) ∧
  (∀ (n : Nat) (rows : List (Byte × List Char × List Char)), (∀ r ∈ rows, ∀ c ∈ r.2.1, isBlank c = true) →
    imageFrom n (rows.map (fun r => binaryDigits r.1 ++ r.2.1 ++ '#' :: r.2.2)) = .ok (rows.map (fun r => r.1))) ∧
  (∀ (n : Nat) (ls : List (List Char)), (∀ l ∈ ls, lineByte l ≠ none) →
    imageFrom n ls = .ok (ls.filterMap (fun l => (lineByte l).join))) ∧
  (∀ (n : Nat) (before after : List (List Char)) (l : List Char) (image : List Byte), lineByte l = some none →
    (imageFrom n (before ++ l :: after) = .ok image ↔ imageFrom n (before ++ after) = .ok image))

/-- R68: every well-formed instruction has a spelling that reads back as it. The spelling with no blank after the comma
and decimal immediates is the model's choice (log entry 19). -/
def Obligations.AssemblyReadsBack : Prop :=
  ∀ i : Instr, i.wellFormed = true → readAsm (writeAsm i) = some i
end

