-- ==== Sys2Proof/Laws/Decode.lean ====
section
/-! SUPPORT. Small lemmas of the opcode map and the decoder. -/

namespace Sys2Proof

/-- No two rows of the opcode map share an opcode byte (R63). -/
theorem opTable_codes_distinct : opTable.Pairwise (fun a b => a.code ≠ b.code) := by decide

/-- The opcode table has every instruction. -/
theorem mem_opTable (o : Op) : o ∈ opTable := by cases o <;> decide

@[simp] theorem decodeOp_code (o : Op) : decodeOp o.code = some o := by cases o <;> rfl

/-- A byte decodes to an instruction exactly when it is that instruction's opcode (R82). -/
theorem decodeOp_eq_some {b : Byte} {o : Op} : decodeOp b = some o ↔ b = o.code := by
  constructor
  · intro h
    exact (eq_of_beq (List.find?_some (p := fun o : Op => o.code == b) h)).symm
  · rintro rfl
    exact decodeOp_code o

@[simp] theorem Op.op_withOperands (o : Op) (a b : Byte) : (o.withOperands a b).op = o := by cases o <;> rfl

/-- Opcode and operand bytes determine the instruction. -/
theorem Instr.eq_withOperands (i : Instr) :
    i = i.op.withOperands (i.operandBytes.getD 0 0) (i.operandBytes.getD 1 0) := by
  cases i <;> rfl

/-- An instruction has as many operand bytes as its format (R61). -/
theorem Instr.operandBytes_length (i : Instr) : i.operandBytes.length = i.op.format.operands := by cases i <;> rfl

/-- All the window decoder can do (R82). -/
theorem decodeWindow_eq_some {op a b : Byte} {i : Instr} :
    decodeWindow op a b = some i ↔ ∃ o : Op, op = o.code ∧ i = o.withOperands a b := by
  simp only [decodeWindow, Option.map_eq_some_iff, decodeOp_eq_some]
  constructor <;> rintro ⟨o, h, rfl⟩ <;> exact ⟨o, h, rfl⟩

end Sys2Proof
end

