-- ==== Sys2Proof/Laws/State.lean ====
section
/-! SUPPORT. What each update of the state does to each field, and to the readings of a register and of a byte of
memory. -/

namespace Sys2Proof.Machine

/-! ### State.setReg -/

@[simp] theorem State.setReg_regs (s : State) (r : Reg) (v : Byte) : (s.setReg r v).regs = s.regs.set r v := rfl
@[simp] theorem State.setReg_pc (s : State) (r : Reg) (v : Byte) : (s.setReg r v).pc = s.pc := rfl
@[simp] theorem State.setReg_fl (s : State) (r : Reg) (v : Byte) : (s.setReg r v).fl = s.fl := rfl
@[simp] theorem State.setReg_status (s : State) (r : Reg) (v : Byte) : (s.setReg r v).status = s.status := rfl
@[simp] theorem State.setReg_mem (s : State) (r : Reg) (v : Byte) : (s.setReg r v).mem = s.mem := rfl
@[simp] theorem State.setReg_out (s : State) (r : Reg) (v : Byte) : (s.setReg r v).out = s.out := rfl
@[simp] theorem State.setReg_read (s : State) (r : Reg) (v : Byte) (x : Byte) : (s.setReg r v).read x = s.read x := rfl

/-! ### State.write -/

@[simp] theorem State.write_regs (s : State) (a v : Byte) : (s.write a v).regs = s.regs := rfl
@[simp] theorem State.write_pc (s : State) (a v : Byte) : (s.write a v).pc = s.pc := rfl
@[simp] theorem State.write_fl (s : State) (a v : Byte) : (s.write a v).fl = s.fl := rfl
@[simp] theorem State.write_status (s : State) (a v : Byte) : (s.write a v).status = s.status := rfl
@[simp] theorem State.write_mem (s : State) (a v : Byte) : (s.write a v).mem = s.mem.write a.toNat v := rfl
@[simp] theorem State.write_out (s : State) (a v : Byte) : (s.write a v).out = s.out := rfl
@[simp] theorem State.write_reg (s : State) (a v : Byte) (q : Reg) : (s.write a v).reg q = s.reg q := rfl

/-! ### State.setPc -/

@[simp] theorem State.setPc_regs (s : State) (t : Byte) : (s.setPc t).regs = s.regs := rfl
@[simp] theorem State.setPc_pc (s : State) (t : Byte) : (s.setPc t).pc = t := rfl
@[simp] theorem State.setPc_fl (s : State) (t : Byte) : (s.setPc t).fl = s.fl := rfl
@[simp] theorem State.setPc_status (s : State) (t : Byte) : (s.setPc t).status = s.status := rfl
@[simp] theorem State.setPc_mem (s : State) (t : Byte) : (s.setPc t).mem = s.mem := rfl
@[simp] theorem State.setPc_out (s : State) (t : Byte) : (s.setPc t).out = s.out := rfl
@[simp] theorem State.setPc_reg (s : State) (t : Byte) (q : Reg) : (s.setPc t).reg q = s.reg q := rfl
@[simp] theorem State.setPc_read (s : State) (t : Byte) (x : Byte) : (s.setPc t).read x = s.read x := rfl

/-! ### State.advance -/

@[simp] theorem State.advance_regs (s : State) (n : Byte) : (s.advance n).regs = s.regs := rfl
@[simp] theorem State.advance_pc (s : State) (n : Byte) : (s.advance n).pc = s.pc + n := rfl
@[simp] theorem State.advance_fl (s : State) (n : Byte) : (s.advance n).fl = s.fl := rfl
@[simp] theorem State.advance_status (s : State) (n : Byte) : (s.advance n).status = s.status := rfl
@[simp] theorem State.advance_mem (s : State) (n : Byte) : (s.advance n).mem = s.mem := rfl
@[simp] theorem State.advance_out (s : State) (n : Byte) : (s.advance n).out = s.out := rfl
@[simp] theorem State.advance_reg (s : State) (n : Byte) (q : Reg) : (s.advance n).reg q = s.reg q := rfl
@[simp] theorem State.advance_read (s : State) (n : Byte) (x : Byte) : (s.advance n).read x = s.read x := rfl

/-! ### State.setFl -/

@[simp] theorem State.setFl_regs (s : State) (v : Byte) : (s.setFl v).regs = s.regs := rfl
@[simp] theorem State.setFl_pc (s : State) (v : Byte) : (s.setFl v).pc = s.pc := rfl
@[simp] theorem State.setFl_fl (s : State) (v : Byte) : (s.setFl v).fl = v := rfl
@[simp] theorem State.setFl_status (s : State) (v : Byte) : (s.setFl v).status = s.status := rfl
@[simp] theorem State.setFl_mem (s : State) (v : Byte) : (s.setFl v).mem = s.mem := rfl
@[simp] theorem State.setFl_out (s : State) (v : Byte) : (s.setFl v).out = s.out := rfl
@[simp] theorem State.setFl_reg (s : State) (v : Byte) (q : Reg) : (s.setFl v).reg q = s.reg q := rfl
@[simp] theorem State.setFl_read (s : State) (v : Byte) (x : Byte) : (s.setFl v).read x = s.read x := rfl

/-! ### State.setStatus -/

@[simp] theorem State.setStatus_regs (s : State) (t : Status) : (s.setStatus t).regs = s.regs := rfl
@[simp] theorem State.setStatus_pc (s : State) (t : Status) : (s.setStatus t).pc = s.pc := rfl
@[simp] theorem State.setStatus_fl (s : State) (t : Status) : (s.setStatus t).fl = s.fl := rfl
@[simp] theorem State.setStatus_status (s : State) (t : Status) : (s.setStatus t).status = t := rfl
@[simp] theorem State.setStatus_mem (s : State) (t : Status) : (s.setStatus t).mem = s.mem := rfl
@[simp] theorem State.setStatus_out (s : State) (t : Status) : (s.setStatus t).out = s.out := rfl
@[simp] theorem State.setStatus_reg (s : State) (t : Status) (q : Reg) : (s.setStatus t).reg q = s.reg q := rfl
@[simp] theorem State.setStatus_read (s : State) (t : Status) (x : Byte) : (s.setStatus t).read x = s.read x := rfl

/-! ### State.emit -/

@[simp] theorem State.emit_regs (s : State) (v : Byte) : (s.emit v).regs = s.regs := rfl
@[simp] theorem State.emit_pc (s : State) (v : Byte) : (s.emit v).pc = s.pc := rfl
@[simp] theorem State.emit_fl (s : State) (v : Byte) : (s.emit v).fl = s.fl := rfl
@[simp] theorem State.emit_status (s : State) (v : Byte) : (s.emit v).status = s.status := rfl
@[simp] theorem State.emit_mem (s : State) (v : Byte) : (s.emit v).mem = s.mem := rfl
@[simp] theorem State.emit_out (s : State) (v : Byte) : (s.emit v).out = s.out ++ [v] := rfl
@[simp] theorem State.emit_reg (s : State) (v : Byte) (q : Reg) : (s.emit v).reg q = s.reg q := rfl
@[simp] theorem State.emit_read (s : State) (v : Byte) (x : Byte) : (s.emit v).read x = s.read x := rfl

/-- A register reads as what was last written to it; the others keep their value (00_scope.md R9). -/
theorem State.reg_setReg (s : State) (r q : Reg) (v : Byte) :
    (s.setReg r v).reg q = if r = q then v else s.reg q := by
  simp only [State.reg, State.setReg, Fin.getElem_fin, Vector.getElem_set, Fin.ext_iff]

@[simp] theorem State.reg_setReg_same (s : State) (r : Reg) (v : Byte) : (s.setReg r v).reg r = v := by
  simp [State.reg_setReg]

theorem State.reg_setReg_other (s : State) {r q : Reg} (v : Byte) (h : r ≠ q) : (s.setReg r v).reg q = s.reg q := by
  simp [State.reg_setReg, h]

/-- Two states are equal when every register and every other field is. -/
theorem State.ext_regs {s t : State} (hr : ∀ r, s.reg r = t.reg r) (hpc : s.pc = t.pc) (hfl : s.fl = t.fl)
    (hst : s.status = t.status) (hm : s.mem = t.mem) (ho : s.out = t.out) : s = t := by
  obtain ⟨sr, _, _, _, _, _⟩ := s
  obtain ⟨tr, _, _, _, _, _⟩ := t
  obtain rfl : sr = tr := Vector.ext fun i hi => hr ⟨i, hi⟩
  simp_all

end Sys2Proof.Machine
end

