-- ==== Sys2Proof/Laws/Memory.lean ====
section
/-! SUPPORT. The laws of memory: a byte reads as what was last stored to it (20_memory.md R42, R49), every operation keeps
the canonical form, and in canonical form equal contents are equal data. -/

namespace Sys2Proof.Machine

/-! ### Reading after an update -/

@[simp] theorem Memory.read_nil (a : Nat) : Memory.read [] a = Config.memReset := rfl

theorem Memory.read_cons (k : Nat) (v : Byte) (m : Memory) (a : Nat) :
    Memory.read ((k, v) :: m) a = if k = a then v else Memory.read m a := rfl

theorem Memory.read_forget (m : Memory) (a b : Nat) :
    (m.forget a).read b = if b = a then Config.memReset else m.read b := by
  induction m with
  | nil => simp [Memory.forget]
  | cons c m ih =>
    obtain ⟨k, v⟩ := c
    rw [Memory.forget] at ih ⊢
    by_cases hka : k = a
    · subst hka
      rw [List.filter_cons_of_neg (by simp), ih, Memory.read_cons]
      by_cases hb : b = k <;> simp [hb, eq_comm]
    · rw [List.filter_cons_of_pos (by simpa using hka), Memory.read_cons, ih, Memory.read_cons]
      by_cases hkb : k = b
      · subst hkb; simp [hka]
      · simp [hkb]

theorem Memory.read_place_other (m : Memory) {a b : Nat} (v : Byte) (h : a ≠ b) : (m.place a v).read b = m.read b := by
  induction m with
  | nil => simp [Memory.place, Memory.read_cons, h]
  | cons c m ih =>
    obtain ⟨k, w⟩ := c
    simp only [Memory.place]
    split <;> simp [Memory.read_cons, h, ih]

theorem Memory.read_place_same (m : Memory) (a : Nat) (v : Byte) (h : ∀ c ∈ m, c.1 ≠ a) : (m.place a v).read a = v := by
  induction m with
  | nil => simp [Memory.place, Memory.read_cons]
  | cons c m ih =>
    obtain ⟨k, w⟩ := c
    have hk : k ≠ a := h (k, w) (by simp)
    simp only [Memory.place]
    split
    · simp [Memory.read_cons]
    · simp [Memory.read_cons, hk, ih (fun c hc => h c (by simp [hc]))]

theorem Memory.forget_key (m : Memory) (a : Nat) : ∀ c ∈ m.forget a, c.1 ≠ a := by
  intro c hc
  simpa using (List.mem_filter.mp hc).2

/-- The law of memory: a stored byte is read back, and a store changes no other byte (R42). It holds of every list, in
canonical form or not. -/
theorem Memory.read_write (m : Memory) (a b : Nat) (v : Byte) :
    (m.write a v).read b = if b = a then v else m.read b := by
  unfold Memory.write
  by_cases hb : b = a
  · subst hb
    split
    · next h => simp [Memory.read_forget, h]
    · simp [Memory.read_place_same _ _ _ (Memory.forget_key m b)]
  · split
    · simp [Memory.read_forget, hb]
    · rw [Memory.read_place_other _ _ (Ne.symm hb), Memory.read_forget, if_neg hb]

/-- The same law on the state, whose addresses are bytes. -/
theorem State.read_write (s : State) (a b v : Byte) : (s.write a v).read b = if b = a then v else s.read b := by
  simp only [State.read, State.write, Memory.read_write, BitVec.toNat_inj]

/-! ### The canonical form -/

theorem Memory.wfFrom_cons {lo k : Nat} {v : Byte} {m : Memory} :
    Memory.wfFrom lo ((k, v) :: m) = true ↔
      lo ≤ k ∧ k < Config.memSize ∧ v ≠ Config.memReset ∧ Memory.wfFrom (k + 1) m = true := by
  simp [Memory.wfFrom, and_assoc]

theorem Memory.wfFrom_mono {lo lo' : Nat} {m : Memory} (h : lo' ≤ lo) (hm : m.wfFrom lo = true) :
    m.wfFrom lo' = true := by
  cases m with
  | nil => rfl
  | cons c m =>
    obtain ⟨k, v⟩ := c
    rw [Memory.wfFrom_cons] at hm ⊢
    exact ⟨by omega, hm.2⟩

theorem Memory.forget_wfFrom {lo : Nat} {m : Memory} (a : Nat) (hm : m.wfFrom lo = true) :
    (m.forget a).wfFrom lo = true := by
  induction m generalizing lo with
  | nil => rfl
  | cons c m ih =>
    obtain ⟨k, v⟩ := c
    rw [Memory.wfFrom_cons] at hm
    obtain ⟨hlo, hk, hv, hm⟩ := hm
    have h := ih hm
    rw [Memory.forget] at h ⊢
    by_cases hka : k = a
    · rw [List.filter_cons_of_neg (by simp [hka])]
      exact Memory.wfFrom_mono (by omega) h
    · rw [List.filter_cons_of_pos (by simpa using hka), Memory.wfFrom_cons]
      exact ⟨hlo, hk, hv, h⟩

theorem Memory.place_wfFrom {lo a : Nat} {v : Byte} {m : Memory} (hm : m.wfFrom lo = true) (hlo : lo ≤ a)
    (ha : a < Config.memSize) (hv : v ≠ Config.memReset) (hk : ∀ c ∈ m, c.1 ≠ a) : (m.place a v).wfFrom lo = true := by
  induction m generalizing lo with
  | nil => simp [Memory.place, Memory.wfFrom, hlo, ha, hv]
  | cons c m ih =>
    obtain ⟨k, w⟩ := c
    have hka : k ≠ a := hk (k, w) (by simp)
    rw [Memory.wfFrom_cons] at hm
    simp only [Memory.place]
    split
    · rw [Memory.wfFrom_cons, Memory.wfFrom_cons]
      exact ⟨hlo, ha, hv, by omega, hm.2⟩
    · rw [Memory.wfFrom_cons]
      exact ⟨hm.1, hm.2.1, hm.2.2.1, ih hm.2.2.2 (by omega) fun c hc => hk c (by simp [hc])⟩

/-- A store keeps the canonical form. -/
theorem Memory.write_wf {m : Memory} {a : Nat} (v : Byte) (hm : m.wf = true) (ha : a < Config.memSize) :
    (m.write a v).wf = true := by
  unfold Memory.write
  have h : (m.forget a).wfFrom 0 = true := Memory.forget_wfFrom a hm
  split
  · exact h
  · next hv => exact Memory.place_wfFrom h (Nat.zero_le a) ha hv (Memory.forget_key m a)

/-- A store of the core keeps the canonical form: its addresses are bytes (R44). -/
theorem State.write_wf {s : State} (a v : Byte) (hs : s.mem.wf = true) : (s.write a v).mem.wf = true :=
  Memory.write_wf v hs a.isLt

/-- A load that fits keeps the canonical form. -/
theorem Memory.writeAll_wf {m : Memory} {a : Nat} (bs : List Byte) (hm : m.wf = true)
    (ha : a + bs.length ≤ Config.memSize) : (m.writeAll a bs).wf = true := by
  induction bs generalizing m a with
  | nil => exact hm
  | cons b bs ih =>
    rw [List.length_cons] at ha
    exact ih (Memory.write_wf b hm (by omega)) (by omega)

/-- Reset memory is in canonical form. -/
theorem Memory.reset_wf : State.reset.mem.wf = true := rfl

end Sys2Proof.Machine
end

