-- ==== Sys2Proof/Laws/Ops.lean ====
section
/-! SUPPORT. One lemma per shared operation that says all it can do: the register check, a fault, the ALU, a jump, and when
a step exists. Later proofs cite these and do not unfold the operations. -/

namespace Sys2Proof.Machine

/-! ### The register field -/

@[simp] theorem regByte_toNat (r : Reg) : (regByte r).toNat = r.val := by
  have := r.isLt
  simp only [regByte, BitVec.toNat_ofNat]
  omega

@[simp] theorem regOf_regByte (r : Reg) : regOf (regByte r) = some r := by
  simp [regOf]

/-- A field names register `r` exactly when it is that register's byte. -/
theorem regOf_eq_some {f : Byte} {r : Reg} : regOf f = some r ↔ f = regByte r := by
  constructor
  · intro h
    unfold regOf at h
    split at h
    · obtain rfl := Option.some.inj h
      apply BitVec.eq_of_toNat_eq
      rw [regByte_toNat]
    · contradiction
  · rintro rfl
    exact regOf_regByte r

/-- Different registers have different field bytes. -/
theorem regByte_inj {a b : Reg} : regByte a = regByte b ↔ a = b := by
  constructor
  · intro h
    have := congrArg BitVec.toNat h
    rw [regByte_toNat, regByte_toNat] at this
    exact Fin.ext this
  · rintro rfl
    rfl

/-- A field names no register exactly when it is above 7 (R62). -/
theorem regOf_eq_none {f : Byte} : regOf f = none ↔ 7 < f.toNat := by
  unfold regOf
  split <;> simp <;> omega

@[simp] theorem withReg_regByte (r : Reg) (s : State) (body : Reg → Host.Outcome State Fault Refusal) :
    withReg (regByte r) s body = body r := by
  simp [withReg]

theorem withReg_bad {f : Byte} (h : 7 < f.toNat) (s : State) (body : Reg → Host.Outcome State Fault Refusal) :
    withReg f s body = raise .badRegister s := by
  simp [withReg, regOf_eq_none.mpr h]

/-- All the register check can do: go on with the register the field names, or take BadRegister (R83). -/
theorem withReg_cases (f : Byte) (s : State) (body : Reg → Host.Outcome State Fault Refusal) :
    (∃ r, f = regByte r ∧ withReg f s body = body r) ∨ (7 < f.toNat ∧ withReg f s body = raise .badRegister s) := by
  cases h : regOf f with
  | some r =>
    obtain rfl := regOf_eq_some.mp h
    exact .inl ⟨r, rfl, withReg_regByte r s body⟩
  | none => exact .inr ⟨regOf_eq_none.mp h, withReg_bad (regOf_eq_none.mp h) s body⟩

/-! ### Faults and steps -/

/-- Taking a fault writes status and nothing else (R181). -/
theorem raise_next {c : Cause} {s t : State} (h : raise c s = .next t) : t = s.setStatus (.faulted c) := by
  simpa [raise, eq_comm] using h

/-- A next state comes only from a RUNNING core and its body (R80). -/
theorem whileRunning_next {s t : State} {body : Host.Outcome State Fault Refusal}
    (h : whileRunning s body = .next t) : s.status = .running ∧ body = .next t := by
  unfold whileRunning at h
  split at h
  · exact ⟨‹_›, h⟩
  · cases h
  · cases h

theorem whileRunning_running {s : State} (h : s.status = .running) (body : Host.Outcome State Fault Refusal) :
    whileRunning s body = body := by
  simp [whileRunning, h]

/-- All a step that answers a next state can do: the core was RUNNING, and it raised UnknownOpcode or executed what it
decoded (R85). -/
theorem step_next {s t : State} (h : step s = .next t) :
    s.status = .running ∧
      ((fetchInstr s = none ∧ t = s.setStatus (.faulted .unknownOpcode)) ∨
        ∃ i, fetchInstr s = some i ∧ exec i s = .next t) := by
  obtain ⟨hr, hb⟩ := whileRunning_next h
  refine ⟨hr, ?_⟩
  cases hf : fetchInstr s with
  | none =>
    rw [hf] at hb
    exact .inl ⟨rfl, raise_next hb⟩
  | some i =>
    rw [hf] at hb
    exact .inr ⟨i, rfl, hb⟩

/-- A step of a RUNNING core that decodes executes what it decoded (R85). -/
theorem step_running {s : State} {i : Instr} (hr : s.status = .running) (hf : fetchInstr s = some i) :
    step s = exec i s := by
  rw [step, whileRunning_running hr, hf]

/-- A step of a RUNNING core that does not decode raises UnknownOpcode (R82). -/
theorem step_unknown {s : State} (hr : s.status = .running) (hf : fetchInstr s = none) :
    step s = raise .unknownOpcode s := by
  rw [step, whileRunning_running hr, hf]

/-! ### The ALU and the jumps -/

@[simp] theorem runAlu_mul (a b : Reg) (s : State) :
    runAlu .mul a b s = .next ((s.setReg a (s.reg a * s.reg b)).advance 3) := rfl

@[simp] theorem runAlu_cmp (a b : Reg) (s : State) :
    runAlu .cmp a b s = .next ((s.setFl (cmpFlags (s.reg a) (s.reg b))).advance 3) := rfl

/-- A compare's flag update is one of E, L, G, by the unsigned order (R103). -/
theorem cmpFlags_cases (a b : Byte) :
    (a.toNat = b.toNat ∧ cmpFlags a b = flE) ∨ (a.toNat < b.toNat ∧ cmpFlags a b = flL) ∨
      (b.toNat < a.toNat ∧ cmpFlags a b = flG) := by
  unfold cmpFlags
  split
  · next h => exact .inl ⟨by rw [h], rfl⟩
  · next h =>
    have hne : a.toNat ≠ b.toNat := fun e => h (BitVec.eq_of_toNat_eq e)
    split
    · next hl => exact .inr (.inl ⟨by simpa [BitVec.lt_def] using hl, rfl⟩)
    · next hl => exact .inr (.inr ⟨by rw [BitVec.lt_def] at hl; omega, rfl⟩)

@[simp] theorem jumpIf_regByte (taken : Bool) (r : Reg) (s : State) :
    jumpIf taken (regByte r) s = .next (if taken then s.setPc (s.reg r) else s.advance 2) := by
  simp [jumpIf]

end Sys2Proof.Machine
end

