-- ==== Sys2Proof/Laws/Exec.lean ====
section
/-! SUPPORT. One inversion lemma per instruction: all its meaning can do when it answers a next state. Every meaning either
takes BadRegister or has the one effect of its rule. `exec_next` gathers them: what `exec` can do is the relation `Effect`,
and later proofs split that and unfold no meaning. -/

namespace Sys2Proof.Machine

/-- BadRegister as a next state: status FAULTED, all else as before (60_exceptions.md R181, R184). -/
abbrev BadReg (s t : State) : Prop := t = s.setStatus (.faulted .badRegister)

theorem execLdi_next {ra imm : Byte} {s t : State} (h : execLdi ra imm s = .next t) :
    (7 < ra.toNat ∧ BadReg s t) ∨ ∃ r, ra = regByte r ∧ t = (s.setReg r imm).advance 3 := by
  obtain ⟨r, rfl, hb⟩ | ⟨hf, hb⟩ := withReg_cases ra s fun r => .next ((s.setReg r imm).advance 3)
  · exact .inr ⟨r, rfl, (Host.Outcome.next.inj (hb.symm.trans h)).symm⟩
  · exact .inl ⟨hf, raise_next (hb.symm.trans h)⟩

theorem execPrn_next {ra : Byte} {s t : State} (h : execPrn ra s = .next t) :
    (7 < ra.toNat ∧ BadReg s t) ∨ ∃ r, ra = regByte r ∧ t = (s.emit (s.reg r)).advance 2 := by
  obtain ⟨r, rfl, hb⟩ | ⟨hf, hb⟩ := withReg_cases ra s fun r => .next ((s.emit (s.reg r)).advance 2)
  · exact .inr ⟨r, rfl, (Host.Outcome.next.inj (hb.symm.trans h)).symm⟩
  · exact .inl ⟨hf, raise_next (hb.symm.trans h)⟩

theorem execHlt_next {s t : State} (h : execHlt s = .next t) : t = (s.setStatus .halted).advance 1 :=
  (Host.Outcome.next.inj h).symm

theorem execPop_next {ra : Byte} {s t : State} (h : execPop ra s = .next t) :
    (7 < ra.toNat ∧ BadReg s t) ∨ ∃ r, ra = regByte r ∧
      t = ((s.setReg r (s.read (popAddr s))).setReg sp
            ((s.setReg r (s.read (popAddr s))).reg sp + 1)).advance 2 := by
  obtain ⟨r, rfl, hb⟩ | ⟨hf, hb⟩ := withReg_cases ra s fun r => .next (((s.setReg r (s.read (popAddr s))).setReg sp
      ((s.setReg r (s.read (popAddr s))).reg sp + 1)).advance 2)
  · exact .inr ⟨r, rfl, (Host.Outcome.next.inj (hb.symm.trans h)).symm⟩
  · exact .inl ⟨hf, raise_next (hb.symm.trans h)⟩

theorem execPush_next {ra : Byte} {s t : State} (h : execPush ra s = .next t) :
    (7 < ra.toNat ∧ BadReg s t) ∨ ∃ r, ra = regByte r ∧
      t = ((s.setReg sp (pushAddr s)).write (pushAddr s) ((s.setReg sp (pushAddr s)).reg r)).advance 2 := by
  obtain ⟨r, rfl, hb⟩ | ⟨hf, hb⟩ := withReg_cases ra s fun r => .next (((s.setReg sp (pushAddr s)).write
      ((s.setReg sp (pushAddr s)).reg sp) ((s.setReg sp (pushAddr s)).reg r)).advance 2)
  · have ht := (Host.Outcome.next.inj (hb.symm.trans h)).symm
    rw [State.reg_setReg_same] at ht
    exact .inr ⟨r, rfl, ht⟩
  · exact .inl ⟨hf, raise_next (hb.symm.trans h)⟩

theorem execMul_next {ra rb : Byte} {s t : State} (h : execMul ra rb s = .next t) :
    ((7 < ra.toNat ∨ 7 < rb.toNat) ∧ BadReg s t) ∨
      ∃ a b, ra = regByte a ∧ rb = regByte b ∧ t = (s.setReg a (s.reg a * s.reg b)).advance 3 := by
  obtain ⟨a, rfl, ha⟩ | ⟨hf, hb⟩ := withReg_cases ra s fun a => withReg rb s fun b => runAlu .mul a b s
  · obtain ⟨b, rfl, hb⟩ | ⟨hf, hb⟩ := withReg_cases rb s fun b => runAlu .mul a b s
    · exact .inr ⟨a, b, rfl, rfl, (Host.Outcome.next.inj ((ha.trans hb).symm.trans h)).symm⟩
    · exact .inl ⟨.inr hf, raise_next ((ha.trans hb).symm.trans h)⟩
  · exact .inl ⟨.inl hf, raise_next (hb.symm.trans h)⟩

theorem execCmp_next {ra rb : Byte} {s t : State} (h : execCmp ra rb s = .next t) :
    ((7 < ra.toNat ∨ 7 < rb.toNat) ∧ BadReg s t) ∨
      ∃ a b, ra = regByte a ∧ rb = regByte b ∧ t = (s.setFl (cmpFlags (s.reg a) (s.reg b))).advance 3 := by
  obtain ⟨a, rfl, ha⟩ | ⟨hf, hb⟩ := withReg_cases ra s fun a => withReg rb s fun b => runAlu .cmp a b s
  · obtain ⟨b, rfl, hb⟩ | ⟨hf, hb⟩ := withReg_cases rb s fun b => runAlu .cmp a b s
    · exact .inr ⟨a, b, rfl, rfl, (Host.Outcome.next.inj ((ha.trans hb).symm.trans h)).symm⟩
    · exact .inl ⟨.inr hf, raise_next ((ha.trans hb).symm.trans h)⟩
  · exact .inl ⟨.inl hf, raise_next (hb.symm.trans h)⟩

/-- The three jumps share one form; `taken` is true for JMP, FL.E for JEQ and its negation for JNE. -/
theorem jumpIf_next {taken : Bool} {ra : Byte} {s t : State} (h : jumpIf taken ra s = .next t) :
    (7 < ra.toNat ∧ BadReg s t) ∨
      ∃ r, ra = regByte r ∧ t = if taken then s.setPc (s.reg r) else s.advance 2 := by
  obtain ⟨r, rfl, hb⟩ | ⟨hf, hb⟩ := withReg_cases ra s fun r =>
    .next (if taken then s.setPc (s.reg r) else s.advance 2)
  · exact .inr ⟨r, rfl, (Host.Outcome.next.inj (hb.symm.trans h)).symm⟩
  · exact .inl ⟨hf, raise_next (hb.symm.trans h)⟩

/-! ### Forward: the effect of each instruction on registers that exist -/

theorem execLdi_regByte (r : Reg) (imm : Byte) (s : State) :
    execLdi (regByte r) imm s = .next ((s.setReg r imm).advance 3) := by
  simp [execLdi]

theorem execPrn_regByte (r : Reg) (s : State) : execPrn (regByte r) s = .next ((s.emit (s.reg r)).advance 2) := by
  simp [execPrn]

theorem execPop_regByte (r : Reg) (s : State) : execPop (regByte r) s =
    .next (((s.setReg r (s.read (popAddr s))).setReg sp ((s.setReg r (s.read (popAddr s))).reg sp + 1)).advance 2) := by
  simp only [execPop, withReg_regByte]

theorem execPush_regByte (r : Reg) (s : State) : execPush (regByte r) s =
    .next (((s.setReg sp (pushAddr s)).write (pushAddr s) ((s.setReg sp (pushAddr s)).reg r)).advance 2) := by
  simp only [execPush, withReg_regByte, State.reg_setReg_same]

theorem execMul_regByte (a b : Reg) (s : State) :
    execMul (regByte a) (regByte b) s = .next ((s.setReg a (s.reg a * s.reg b)).advance 3) := by
  simp [execMul]

theorem execCmp_regByte (a b : Reg) (s : State) :
    execCmp (regByte a) (regByte b) s = .next ((s.setFl (cmpFlags (s.reg a) (s.reg b))).advance 3) := by
  simp [execCmp]

/-! ### The ten together -/

/-- What executing an instruction can do to a state: BadRegister for an ill-formed instruction, else the effect of its
rule. -/
inductive Effect : Instr → State → State → Prop
  | badRegister {i s} (h : i.wellFormed = false) : Effect i s (s.setStatus (.faulted .badRegister))
  | ldi {s} (r : Reg) (imm : Byte) : Effect (.ldi (regByte r) imm) s ((s.setReg r imm).advance 3)
  | prn {s} (r : Reg) : Effect (.prn (regByte r)) s ((s.emit (s.reg r)).advance 2)
  | hlt {s} : Effect .hlt s ((s.setStatus .halted).advance 1)
  | mul {s} (a b : Reg) : Effect (.mul (regByte a) (regByte b)) s ((s.setReg a (s.reg a * s.reg b)).advance 3)
  | pop {s} (r : Reg) : Effect (.pop (regByte r)) s
      (((s.setReg r (s.read (popAddr s))).setReg sp ((s.setReg r (s.read (popAddr s))).reg sp + 1)).advance 2)
  | push {s} (r : Reg) : Effect (.push (regByte r)) s
      (((s.setReg sp (pushAddr s)).write (pushAddr s) ((s.setReg sp (pushAddr s)).reg r)).advance 2)
  | cmp {s} (a b : Reg) : Effect (.cmp (regByte a) (regByte b)) s
      ((s.setFl (cmpFlags (s.reg a) (s.reg b))).advance 3)
  | jmp {s} (r : Reg) : Effect (.jmp (regByte r)) s (s.setPc (s.reg r))
  | jeqTaken {s} (r : Reg) (h : s.flagE = true) : Effect (.jeq (regByte r)) s (s.setPc (s.reg r))
  | jeqNotTaken {s} (r : Reg) (h : s.flagE = false) : Effect (.jeq (regByte r)) s (s.advance 2)
  | jneTaken {s} (r : Reg) (h : s.flagE = false) : Effect (.jne (regByte r)) s (s.setPc (s.reg r))
  | jneNotTaken {s} (r : Reg) (h : s.flagE = true) : Effect (.jne (regByte r)) s (s.advance 2)

/-- Whatever next state `exec` answers is an effect of the instruction. -/
theorem exec_next {i : Instr} {s t : State} (h : exec i s = .next t) : Effect i s t := by
  cases i with
  | ldi ra imm =>
    obtain ⟨hf, rfl⟩ | ⟨r, rfl, rfl⟩ := execLdi_next h
    · exact .badRegister (by simp [Instr.wellFormed, Instr.regFields, hf])
    · exact .ldi r imm
  | prn ra =>
    obtain ⟨hf, rfl⟩ | ⟨r, rfl, rfl⟩ := execPrn_next h
    · exact .badRegister (by simp [Instr.wellFormed, Instr.regFields, hf])
    · exact .prn r
  | hlt =>
    obtain rfl := execHlt_next h
    exact .hlt
  | mul ra rb =>
    obtain ⟨hf, rfl⟩ | ⟨a, b, rfl, rfl, rfl⟩ := execMul_next h
    · exact .badRegister (by simp only [Instr.wellFormed, Instr.regFields, List.all_cons, List.all_nil]; simp; omega)
    · exact .mul a b
  | pop ra =>
    obtain ⟨hf, rfl⟩ | ⟨r, rfl, rfl⟩ := execPop_next h
    · exact .badRegister (by simp [Instr.wellFormed, Instr.regFields, hf])
    · exact .pop r
  | push ra =>
    obtain ⟨hf, rfl⟩ | ⟨r, rfl, rfl⟩ := execPush_next h
    · exact .badRegister (by simp [Instr.wellFormed, Instr.regFields, hf])
    · exact .push r
  | cmp ra rb =>
    obtain ⟨hf, rfl⟩ | ⟨a, b, rfl, rfl, rfl⟩ := execCmp_next h
    · exact .badRegister (by simp only [Instr.wellFormed, Instr.regFields, List.all_cons, List.all_nil]; simp; omega)
    · exact .cmp a b
  | jmp ra =>
    obtain ⟨hf, rfl⟩ | ⟨r, rfl, rfl⟩ := jumpIf_next h
    · exact .badRegister (by simp [Instr.wellFormed, Instr.regFields, hf])
    · exact .jmp r
  | jeq ra =>
    obtain ⟨hf, rfl⟩ | ⟨r, rfl, rfl⟩ := jumpIf_next h
    · exact .badRegister (by simp [Instr.wellFormed, Instr.regFields, hf])
    · split
      · exact .jeqTaken r ‹_›
      · exact .jeqNotTaken r (by simpa using ‹¬ s.flagE = true›)
  | jne ra =>
    obtain ⟨hf, rfl⟩ | ⟨r, rfl, rfl⟩ := jumpIf_next h
    · exact .badRegister (by simp [Instr.wellFormed, Instr.regFields, hf])
    · split
      · exact .jneTaken r (by simpa using ‹(!s.flagE) = true›)
      · exact .jneNotTaken r (by simpa using ‹¬ (!s.flagE) = true›)

end Sys2Proof.Machine
end

