-- ==== Sys2Proof/Laws/PerInstr.lean ====
section
/-! SUPPORT. Statements made for every instruction, one lemma per constructor. -/

/-- An instruction's encoding has the length its opcode tells, 1 to 3 bytes (30_encoding.md R60). -/
def Sys2Proof.Laws.EncodeLength.Statement (i : Sys2Proof.Instr) : Prop :=
  (Sys2Proof.encode i).length = i.op.length ∧ 1 ≤ i.op.length ∧ i.op.length ≤ 3

namespace Sys2Proof.Laws.EncodeLength

theorem ldi (ra imm : Sys2Proof.Byte) : Statement (.ldi ra imm) := ⟨rfl, Nat.le_add_left 1 _, Nat.le_of_ble_eq_true rfl⟩
theorem prn (ra : Sys2Proof.Byte) : Statement (.prn ra) := ⟨rfl, Nat.le_add_left 1 _, Nat.le_of_ble_eq_true rfl⟩
theorem hlt : Statement .hlt := ⟨rfl, Nat.le_add_left 1 _, Nat.le_of_ble_eq_true rfl⟩
theorem mul (ra rb : Sys2Proof.Byte) : Statement (.mul ra rb) := ⟨rfl, Nat.le_add_left 1 _, Nat.le_of_ble_eq_true rfl⟩
theorem pop (ra : Sys2Proof.Byte) : Statement (.pop ra) := ⟨rfl, Nat.le_add_left 1 _, Nat.le_of_ble_eq_true rfl⟩
theorem push (ra : Sys2Proof.Byte) : Statement (.push ra) := ⟨rfl, Nat.le_add_left 1 _, Nat.le_of_ble_eq_true rfl⟩
theorem cmp (ra rb : Sys2Proof.Byte) : Statement (.cmp ra rb) := ⟨rfl, Nat.le_add_left 1 _, Nat.le_of_ble_eq_true rfl⟩
theorem jmp (ra : Sys2Proof.Byte) : Statement (.jmp ra) := ⟨rfl, Nat.le_add_left 1 _, Nat.le_of_ble_eq_true rfl⟩
theorem jeq (ra : Sys2Proof.Byte) : Statement (.jeq ra) := ⟨rfl, Nat.le_add_left 1 _, Nat.le_of_ble_eq_true rfl⟩
theorem jne (ra : Sys2Proof.Byte) : Statement (.jne ra) := ⟨rfl, Nat.le_add_left 1 _, Nat.le_of_ble_eq_true rfl⟩

end Sys2Proof.Laws.EncodeLength
end

