-- ==== Sys2Proof/Laws/Run.lean ====
section
/-! SUPPORT. Runs: one more step, and the induction that carries a property every step keeps along a run. -/

namespace Sys2Proof.Machine

/-- No step at all. -/
@[simp] theorem runsTo_zero {s t : State} : RunsTo s 0 t ↔ s = t := by
  constructor
  · exact fun h => Host.Outcome.next.inj h
  · rintro rfl
    rfl

/-- A run of `k + 1` steps is one step and then a run of `k`. -/
theorem runsTo_succ {s t : State} {k : Nat} : RunsTo s (k + 1) t ↔ ∃ u, step s = .next u ∧ RunsTo u k t := by
  simp only [RunsTo, Host.Core.run]
  cases hs : step s with
  | next u =>
    have hc : core.step s = .next u := hs
    simp only [hc]
    constructor
    · exact fun h => ⟨u, rfl, h⟩
    · rintro ⟨_, h, hu⟩
      cases h
      exact hu
  | fault r =>
    have hc : core.step s = .fault r := hs
    simp [hc]
  | refused r =>
    have hc : core.step s = .refused r := hs
    simp [hc]

/-- What every step keeps, every run keeps. -/
theorem runsTo_keeps {P : State → Prop} (hstep : ∀ s t, P s → step s = .next t → P t) {s t : State} {k : Nat}
    (hs : P s) (hrun : RunsTo s k t) : P t := by
  induction k generalizing s with
  | zero =>
    obtain rfl := runsTo_zero.mp hrun
    exact hs
  | succ k ih =>
    obtain ⟨u, hu, hk⟩ := runsTo_succ.mp hrun
    exact ih (hstep s u hs hu) hk

end Sys2Proof.Machine
end

