-- ==== Sys2Proof/Tests/Slice0.lean ====
section
/-! SUPPORT. Tests. The expected results are the spec's own: its encodings (30_encoding.md R61, R63), its worked vectors
(95_test_vectors.md, named V-… below) and its rules. The witnesses at the end show that the hypotheses of the statements can
be met together. -/

namespace Sys2Proof.Tests

open Sys2Proof.Machine Sys2Proof.Claims

/-! ### Helpers -/

/-- Reset, with some registers, pc, FL and some bytes of memory set. -/
def mk (regs : List (Reg × Byte)) (pc fl : Byte) (mem : List (Byte × Byte)) : State :=
  let s := mem.foldl (fun s c => s.write c.1 c.2) { State.reset with pc := pc, fl := fl }
  regs.foldl (fun s c => s.setReg c.1 c.2) s

/-- What one step makes of a reading, where it has a next state. -/
def after {α : Type} (s : State) (f : State → α) : Option α :=
  match step s with
  | .next t => some (f t)
  | _ => none

/-! ### Well-formedness: an ill-formed term for each register field -/

theorem test_wellFormed_ra : (Instr.mul 8 0).wellFormed = false := by decide
theorem test_wellFormed_rb : (Instr.cmp 0 8).wellFormed = false := by decide
theorem test_wellFormed_one_field : [Instr.ldi 8 0, .prn 255, .pop 8, .push 8, .jmp 8, .jeq 8, .jne 8].all
    (fun i => !i.wellFormed) = true := by decide
theorem test_wellFormed_immediate_is_free : (Instr.ldi 7 255).wellFormed = true := by decide

/-! ### Decoding: one word per constructor, the bits of R61 and R63 -/

theorem test_decode_ldi : decode [0b10000010, 0b00000011, 0b00101010] = .ok (.ldi 3 42, []) := by decide
theorem test_decode_prn : decode [0b01000111, 0b00000101] = .ok (.prn 5, []) := by decide
theorem test_decode_hlt : decode [0b00000001, 0xFF] = .ok (.hlt, [0xFF]) := by decide
theorem test_decode_mul : decode [0b10100010, 0b00000001, 0b00000010] = .ok (.mul 1 2, []) := by decide
theorem test_decode_pop : decode [0b01000110, 0b00000111] = .ok (.pop 7, []) := by decide
theorem test_decode_push : decode [0b01000101, 0b00000110, 0x01] = .ok (.push 6, [0x01]) := by decide
theorem test_decode_cmp : decode [0b10100111, 0b00000100, 0b00000011] = .ok (.cmp 4 3, []) := by decide
theorem test_decode_jmp : decode [0b01010100, 0b00000010] = .ok (.jmp 2, []) := by decide
theorem test_decode_jeq : decode [0b01010101, 0b00000011] = .ok (.jeq 3, []) := by decide
theorem test_decode_jne : decode [0b01010110, 0b00000000] = .ok (.jne 0, []) := by decide
theorem test_decode_unknown : decode [0xA0, 0, 1] = .error (.unknownOpcode 0xA0) := by decide
theorem test_decode_truncated : decode [0x82, 0] = .error (.truncated 2 1) := by decide
theorem test_tableWord : decodeTableWord 24 0x2A0382 = some (.ldi 3 42) ∧ decodeTableWord 8 0x2A0382 = some (.ldi 0 0) := by
  decide

/-- The layout AABCDDDD of R64: the two high bits count the operand bytes, bit 5 marks MUL and CMP, bit 4 the jumps. -/
theorem test_opcode_layout : opTable.all (fun o => (o.code >>> 6).toNat + 1 == o.length &&
    (o.code.getLsbD 5 == (o == .mul || o == .cmp)) && (o.code.getLsbD 4 == (o == .jmp || o == .jeq || o == .jne))) = true := by
  decide

/-! ### One step each -/

/-- V-D1: operands fetched from 255 and 0, the advance wraps. -/
theorem test_ldi_wraps : after (mk [] 254 0 [(254, 0x82), (255, 0x03), (0, 0x2A)]) (fun t => (t.reg 3, t.pc)) = some (42, 1) := by
  decide
/-- V-S10. -/
theorem test_ldi_bad_register : after (mk [] 0 0 [(0, 0x82), (1, 8)]) (fun t => (t.status, t.pc, t.regs)) =
    some (.faulted .badRegister, 0, State.reset.regs) := by decide
/-- V-D2. -/
theorem test_prn_wraps : after (mk [(2, 9)] 255 0 [(255, 0x47), (0, 2)]) (fun t => (t.out, t.pc)) = some ([9], 1) := by decide
/-- V-Y6. -/
theorem test_prn_bad_register : after (mk [] 0 0 [(0, 0x47), (1, 0x0C)]) (fun t => (t.status, t.out)) =
    some (.faulted .badRegister, []) := by decide
/-- V-Y5. -/
theorem test_hlt_wraps : after (mk [] 255 0 [(255, 1)]) (fun t => (t.status, t.pc)) = some (.halted, 0) := by decide
/-- V-D9. -/
theorem test_hlt_ignores_operands : after (mk [] 0 0 [(0, 1), (1, 0xFF), (2, 0xFF)]) (fun t => (t.status, t.pc)) =
    some (.halted, 1) := by decide
/-- V-A3. -/
theorem test_mul_wraps : after (mk [(0, 255), (1, 255)] 0 0 [(0, 0xA2), (2, 1)]) (fun t => (t.reg 0, t.reg 1)) = some (1, 255) := by
  decide
/-- V-A8. -/
theorem test_mul_keeps_fl : after (mk [(0, 2), (1, 3)] 0 4 [(0, 0xA2), (2, 1)]) (fun t => (t.reg 0, t.fl, t.pc)) =
    some (6, 4, 3) := by decide
/-- V-S4. -/
theorem test_pop_wraps_sp : after (mk [(7, 0xFF)] 0 0 [(0, 0x46), (1, 1), (0xFF, 42)]) (fun t => (t.reg 1, t.reg 7, t.read 0xFF)) =
    some (42, 0, 42) := by decide
/-- V-S6. -/
theorem test_pop_r7 : after (mk [(7, 0x20)] 0 0 [(0, 0x46), (1, 7), (0x20, 0x80)]) (fun t => t.reg 7) = some 0x81 := by decide
/-- V-S3. -/
theorem test_push_from_reset : after (mk [(0, 42)] 0 0 [(0, 0x45)]) (fun t => (t.reg 7, t.read 0xFF, t.pc)) = some (0xFF, 42, 2) := by
  decide
/-- V-S5. -/
theorem test_push_r7 : after (mk [(7, 0x10)] 0 0 [(0, 0x45), (1, 7)]) (fun t => (t.reg 7, t.read 0x0F)) = some (0x0F, 0x0F) := by
  decide
/-- V-A12. -/
theorem test_cmp_unsigned : after (mk [(1, 255)] 0 0 [(0, 0xA7), (2, 1)]) (fun t => t.fl) = some 4 := by decide
/-- V-A15. -/
theorem test_cmp_clears : after (mk [(0, 3), (1, 3)] 0 4 [(0, 0xA7), (2, 1)]) (fun t => t.fl) = some 1 := by decide
/-- V-B11. -/
theorem test_jmp_r7 : after (mk [(7, 0x40)] 0 0 [(0, 0x54), (1, 7)]) (fun t => t.pc) = some 0x40 := by decide
/-- V-B3. -/
theorem test_jeq_taken : after (mk [(3, 0x20)] 0x10 1 [(0x10, 0x55), (0x11, 3)]) (fun t => t.pc) = some 0x20 := by decide
/-- V-B9. -/
theorem test_jeq_bad_register : after (mk [] 0 0 [(0, 0x55), (1, 8)]) (fun t => t.status) = some (.faulted .badRegister) := by decide
/-- V-B8. -/
theorem test_jne_taken : after (mk [(3, 0x20)] 0x10 2 [(0x10, 0x56), (0x11, 3)]) (fun t => t.pc) = some 0x20 := by decide
/-- V-B10. -/
theorem test_jne_not_taken : after (mk [] 255 1 [(255, 0x56)]) (fun t => t.pc) = some 1 := by decide
/-- V-D3. -/
theorem test_unknown_opcode : after (mk [] 6 0 []) id = some { mk [] 6 0 [] with status := .faulted .unknownOpcode } := by decide
/-- V-D5: the unknown opcode is reported, not the bad registers. -/
theorem test_unknown_first : after (mk [] 0 0 [(0, 0xFF), (1, 9), (2, 9)]) (fun t => t.status) = some (.faulted .unknownOpcode) := by
  decide
/-- V-D10 and V-D11: no step exists. -/
theorem test_no_step : after { State.reset with status := .halted } id = none ∧
    after { State.reset with status := .faulted .unknownOpcode } id = none := by decide
/-- The step after `withFetchWord` at reset is that of the word: MUL R0,R0 and PRN R3. -/
theorem test_withFetchWord : after (State.reset.withFetchWord 24 0x0000A2) (fun t => t.pc) = some 3 ∧
    after (State.reset.withFetchWord 16 0x0347) (fun t => t.out) = some [0] := by decide

/-! ### ALU, loader, assembler, host -/

/-- V-A16 and V-A17. -/
theorem test_alu_add : alu .add 200 100 = .ok ⟨some 44, none⟩ ∧ alu .add 255 1 = .ok ⟨some 0, none⟩ := by decide

/-- V-L2: a comment and a blank line change nothing. -/
theorem test_loader_comment :
    imageFrom 0 [['1', '0', '0', '0', '0', '0', '1', '0', ' ', '#', ' ', 'L', 'D', 'I'], [],
      ['0', '0', '0', '0', '0', '0', '0', '0'], ['0', '0', '0', '0', '1', '0', '0', '0']] = .ok [0x82, 0x00, 0x08] := by decide

theorem test_loader_malformed : imageFrom 0 [[], ['1', '0']] = .error (.malformedLine 1) := by decide

/-- The examples of R68: LDI R0,8 and MUL R0, R1 with a blank after the comma. -/
theorem test_assembler : readAsm ['L', 'D', 'I', ' ', 'R', '0', ',', '8'] = some (.ldi 0 8) ∧
    readAsm ['M', 'U', 'L', ' ', 'R', '0', ',', ' ', 'R', '1'] = some (.mul 0 1) := by decide

/-- The immediate forms of R68, and a number above 255. -/
theorem test_assembler_immediates :
    readImm ['0', 'x', 'f', 'F'] = some 255 ∧ readImm ['0', 'b', '1', '0', '1'] = some 5 ∧ readImm ['2', '5', '6'] = none := by
  decide

/-- A load is turned away after the first step (R194). -/
theorem test_load_after_step : hostMove (.load [1]) ⟨State.reset, true⟩ = .error .loadAfterStep := by decide

/-! ### Witnesses: a state and operands that meet the hypotheses of each statement together -/

/-- A RUNNING state with the opcode byte at pc, for each of the ten, at the top of memory where the operands wrap. -/
theorem witness_stepRuns : opTable.all (fun o =>
    let s := mk [] 255 0 [(255, o.code)]
    s.status == .running && s.read s.pc == o.code) = true := by decide

/-- BadRegister clauses of the ten instruction statements: the first byte that names no register, and the last. -/
theorem witness_badField : 7 < (8 : Byte).toNat ∧ 7 < (255 : Byte).toNat := by decide

/-- PopLoadsThenIncrementsSp, PushDecrementsThenStores: a register that is R7 and one that is not. -/
theorem witness_stackRegisters : (0 : Reg) ≠ 7 ∧ (6 : Reg) ≠ 7 ∧ (7 : Reg) = 7 := by decide

/-- CmpSetsExactlyOneFlag, AluComputesModulo256: equal, below and above at the ends of the range. -/
theorem witness_compare : (255 : Byte).toNat = (255 : Byte).toNat ∧ (0 : Byte).toNat < (255 : Byte).toNat ∧
    (254 : Byte).toNat < (255 : Byte).toNat := by decide

/-- JeqJumpsWhenEqual, JneJumpsWhenNotEqual: FL with E set and FL with E clear. -/
theorem witness_flagE : (mk [] 0 0x01 []).fl.getLsbD 0 = true ∧ (mk [] 0 0x04 []).fl.getLsbD 0 = false := by decide

/-- EncodeOfDecode. -/
theorem witness_EncodeOfDecode : decode [0x45, 0x00, 0x46] = .ok (.push 0, [0x46]) := by decide

/-- WindowReadsOwnBytesOnly: an instruction shorter than the window. -/
theorem witness_WindowReadsOwnBytesOnly : encode .hlt ++ [0xFF, 0x09] = 0x01 :: 0xFF :: 0x09 :: [] := by decide

/-- TableWordRuns. -/
theorem witness_TableWordRuns : decodeTableWord 16 0x0745 = some (.push 7) := by decide

/-- StepRunsDecodedInstruction: the bytes of CMP R4,R1 at 254, 255 and 0. -/
theorem witness_StepRunsDecodedInstruction :
    let s := mk [] 254 0 [(254, 0xA7), (255, 4), (0, 1)]
    s.status = .running ∧ decodeWindow (s.read s.pc) (s.read (s.pc + 1)) (s.read (s.pc + 2)) = some (.cmp 4 1) := by
  decide

/-- EncodedInstructionRuns: the same bytes. -/
theorem witness_EncodedInstructionRuns :
    let s := mk [] 254 0 [(254, 0xA7), (255, 4), (0, 1)]
    s.status = .running ∧ ∀ (k : Nat) (h : k < (encode (.cmp 4 1)).length),
      s.read (s.pc + BitVec.ofNat 8 k) = (encode (.cmp 4 1))[k] := by decide

/-- UnknownOpcodeFaults. -/
theorem witness_UnknownOpcodeFaults :
    let s := mk [] 255 0 [(255, 0xA0)]
    s.status = .running ∧ s.read s.pc ∉ [0x82, 0x47, 0x01, 0xA2, 0x46, 0x45, 0xA7, 0x54, 0x55, (0x56 : Byte)] := by decide

/-- BadRegisterFaults: a bad first field, and a bad second field after a good one. -/
theorem witness_BadRegisterFaults : (∃ f ∈ (Instr.jeq 8).regFields, 7 < f.toNat) ∧
    ∃ f ∈ (Instr.mul 7 8).regFields, 7 < f.toNat := by decide

/-- FaultsArePrecise: a step that ends FAULTED, for each cause. -/
theorem witness_FaultsArePrecise :
    after (mk [] 0 0 []) (fun t => t.status) = some (.faulted .unknownOpcode) ∧
      after (mk [] 0 0 [(0, 0x54), (1, 8)]) (fun t => t.status) = some (.faulted .badRegister) := by decide

/-- WellFormedInstructionsComplete, AssemblyReadsBack. -/
theorem witness_wellFormed : (Instr.mul 7 7).wellFormed = true ∧ Instr.hlt.wellFormed = true := by decide

/-- StepExistsIffRunning: a state of each status. -/
theorem witness_StepExistsIffRunning : State.reset.status = .running ∧ (State.reset.setStatus .halted).status = .halted ∧
    (State.reset.setStatus (.faulted .badRegister)).status = .faulted .badRegister := by decide

/-- OnlyHltHalts, StepKeepsInvariant: a state with the invariant that has a next state, which is HALTED. -/
theorem witness_step_next : State.reset.mem.wf = true ∧ (mk [] 0 4 [(0, 1)]).mem.wf = true ∧
    flLegal (mk [] 0 4 [(0, 1)]).fl = true ∧ after (mk [] 0 4 [(0, 1)]) (fun t => t.status) = some .halted := by decide

/-- SelfJumpNeverEnds: V-B2. -/
theorem witness_SelfJumpNeverEnds :
    let s := mk [(0, 5)] 5 0 [(5, 0x54)]
    s.status = .running ∧ s.read s.pc = 0x54 ∧ s.read (s.pc + 1) = regByte 0 ∧ s.reg 0 = s.pc := by decide

/-- RunsEndOneWay: a run that completes at once and one that aborts at once. -/
theorem witness_RunsEndOneWay : Completes (State.reset.setStatus .halted) ∧
    Aborts (State.reset.setStatus (.faulted .badRegister)) .badRegister :=
  ⟨⟨0, _, rfl, rfl⟩, ⟨0, _, rfl, rfl⟩⟩

/-- The whole-machine frames (OnlyCmpWritesFl, OnlyPushWritesMemory, OnlyPrnEmits, RegistersChangePerTable,
FetchSeesPushedByte): an execution with a next state that changes FL, memory, out or a register, and one that does not. -/
theorem witness_frames :
    (∃ t, exec (.cmp (regByte 0) (regByte 1)) State.reset = .next t ∧ t.fl = 0x01) ∧
      (∃ t, exec (.push (regByte 0)) (State.reset.setReg 0 9) = .next t ∧ t.read 0xFF = 9 ∧ t.fl = 0) ∧
      (∃ t, exec (.prn (regByte 0)) State.reset = .next t ∧ t.out = [0]) ∧
      (∃ t, exec (.ldi (regByte 2) 9) State.reset = .next t ∧ t.reg 2 ≠ State.reset.reg 2) :=
  ⟨⟨_, rfl, by decide⟩, ⟨_, rfl, by decide, by decide⟩, ⟨_, rfl, by decide⟩, ⟨_, rfl, by decide⟩⟩

/-- FlagsGAndLAreUnobservable, OutputIsNeverRead: two states that differ in G and L only, and a run of one step. -/
theorem witness_noninterference : AgreeButGL (mk [] 0 0x02 [(0, 0x47)]) (mk [] 0 0x04 [(0, 0x47)]) ∧
    ∃ t, RunsTo (mk [] 0 0x02 [(0, 0x47)]) 1 t :=
  ⟨⟨by decide, by decide⟩, ⟨_, rfl⟩⟩

/-- MemWriteSetsOneByte: two addresses. -/
theorem witness_MemWriteSetsOneByte : (0 : Byte) ≠ 255 := by decide

/-- CanonicalMemoryIsUnique: a memory in canonical form that lists both ends. -/
theorem witness_CanonicalMemoryIsUnique : Memory.wf [(0, 1), (255, 2)] = true := by decide

/-- LoadKeepsInvariant, LoadPlacesTheImage, HostMovesWhenAllowed: images of 0, 256 and 257 bytes. -/
theorem witness_images : (([] : List Byte).length ≤ 256) ∧ (List.replicate 256 (1 : Byte)).length ≤ 256 ∧
    256 < (List.replicate 257 (1 : Byte)).length ∧ (load [1] State.reset).toOption.isSome = true :=
  ⟨by decide, by rw [List.length_replicate], by rw [List.length_replicate]; decide, by decide⟩

/-- HostMovesWhenAllowed: a session after a step and one before it, RUNNING; a step with a next state, with a fault and
with a refusal. -/
theorem witness_HostMovesWhenAllowed : (Session.mk State.reset true).stepped = true ∧
    (Session.mk State.reset false).stepped = false ∧ (Session.mk State.reset false).core.status = .running ∧
    (∃ s', step State.reset = .next s') ∧
    step (State.reset.setStatus (.faulted .badRegister)) = .fault (.terminated .badRegister) ∧
    step (State.reset.setStatus .halted) = .refused .halted :=
  ⟨rfl, rfl, rfl, ⟨_, rfl⟩, rfl, rfl⟩

/-- LoadPlacesTheImage: the last address of an image and the first after it. -/
theorem witness_imageAddresses : (0 : Byte).toNat < [(1 : Byte)].length ∧ [(1 : Byte)].length ≤ (1 : Byte).toNat := by decide

/-- PushThenPopRoundTrips: two registers that are not R7; the state after the PUSH itself is one that left SP and
memory[SP] alone. -/
theorem witness_PushThenPopRoundTrips : (0 : Reg) ≠ 7 ∧ (1 : Reg) ≠ 7 ∧
    ∃ t, exec (.push (regByte 0)) State.reset = .next t ∧ t.read (t.reg 7) = t.read (t.reg 7) :=
  ⟨by decide, by decide, _, rfl, rfl⟩

/-- LoaderReadsTheFormat: characters without a hash, no blank and some blanks, a skipped line, and a
file with no malformed line. -/
theorem witness_LoaderReadsTheFormat : '#' ∉ ['1', '0'] ∧ (∀ c ∈ ([] : List Char), isBlank c = true) ∧
    (∀ c ∈ [' ', '\t', '\r'], isBlank c = true) ∧ lineByte ['#', 'x'] = some none ∧
    (∀ l ∈ [['#'], binaryDigits 0xFF], lineByte l ≠ none) :=
  ⟨by simp, by simp, by simp [isBlank], by decide, by decide⟩

end Sys2Proof.Tests
end

/-! PROOFS. The statements of 10_state.md. First the converse of `exec_next`, then what an `Effect` does to each field
of the state, then the two noninterference statements by one lockstep argument. -/

/-! ### An effect is what `exec` answers -/

namespace Sys2Proof.Machine

open Sys2Proof.Claims

/-- The register check on two fields: a bad one, whichever it is, takes BadRegister (R83). -/
theorem withReg_withReg_bad {fa fb : Byte} (h : 7 < fa.toNat ∨ 7 < fb.toNat) (s : State)
    (body : Reg → Reg → Host.Outcome State Fault Refusal) :
    (withReg fa s fun a => withReg fb s (body a)) = raise .badRegister s := by
  obtain ⟨a, rfl, ha⟩ | ⟨-, ha⟩ := withReg_cases fa s fun a => withReg fb s (body a)
  · have hfb : 7 < fb.toNat := by
      have := a.isLt
      rw [regByte_toNat] at h
      omega
    rw [ha, withReg_bad hfb]
  · exact ha

/-- An instruction is ill-formed exactly when one of its register fields is above 7 (R62). -/
theorem wellFormed_eq_false {i : Instr} : i.wellFormed = false ↔ ∃ f ∈ i.regFields, 7 < f.toNat := by
  simp [Instr.wellFormed]

/-- An ill-formed instruction takes BadRegister in every state (R184). -/
theorem exec_illFormed {i : Instr} (h : i.wellFormed = false) (s : State) : exec i s = raise .badRegister s := by
  obtain ⟨f, hmem, hf⟩ := wellFormed_eq_false.mp h
  cases i with
  | hlt => cases hmem
  | ldi _ _ | prn _ | pop _ | push _ | jmp _ | jeq _ | jne _ =>
    obtain rfl := List.mem_singleton.mp hmem
    exact withReg_bad hf s _
  | mul _ _ | cmp _ _ =>
    refine withReg_withReg_bad ?_ s _
    obtain rfl | rfl : f = _ ∨ f = _ := by simpa [Instr.regFields] using hmem
    · exact .inl hf
    · exact .inr hf

/-- Every effect is executed: the converse of `exec_next`. -/
theorem Effect.exec_eq {i : Instr} {s t : State} (h : Effect i s t) : exec i s = .next t := by
  cases h with
  | badRegister h => exact exec_illFormed h s
  | ldi r imm => exact execLdi_regByte r imm s
  | prn r => exact execPrn_regByte r s
  | hlt => rfl
  | mul a b => exact execMul_regByte a b s
  | pop r => exact execPop_regByte r s
  | push r => exact execPush_regByte r s
  | cmp a b => exact execCmp_regByte a b s
  | jmp r => exact jumpIf_regByte true r s
  | jeqTaken r h | jeqNotTaken r h => simp [exec, execJeq, h]
  | jneTaken r h | jneNotTaken r h => simp [exec, execJne, h]

/-! ### What an effect does to each field -/

/-- A CMP of registers is well-formed. -/
theorem wellFormed_cmp_regByte (a b : Reg) : (Instr.cmp (regByte a) (regByte b)).wellFormed = true := by
  simp [Instr.wellFormed, Instr.regFields, Nat.le_of_lt_succ a.isLt, Nat.le_of_lt_succ b.isLt]

/-- FL is written by a CMP of registers and by nothing else (R27). -/
theorem Effect.fl_cases {i : Instr} {s t : State} (h : Effect i s t) :
    ((∀ a b : Reg, i ≠ .cmp (regByte a) (regByte b)) ∧ t.fl = s.fl) ∨
      ∃ a b : Reg, i = .cmp (regByte a) (regByte b) ∧ t.fl = cmpFlags (s.reg a) (s.reg b) := by
  cases h with
  | cmp a b => exact .inr ⟨a, b, rfl, rfl⟩
  | badRegister h =>
    refine .inl ⟨?_, rfl⟩
    rintro a b rfl
    simp [wellFormed_cmp_regByte] at h
  | _ => exact .inl ⟨by simp, rfl⟩

/-- Memory is as before, or one byte of it is stored. -/
theorem Effect.mem_cases {i : Instr} {s t : State} (h : Effect i s t) :
    t.mem = s.mem ∨ ∃ a v : Byte, t.mem = (s.write a v).mem := by
  cases h with
  | push r => exact .inr ⟨_, _, rfl⟩
  | _ => exact .inl rfl

/-- Out is written by a PRN of a register and by nothing else (R30). -/
theorem Effect.out_cases {i : Instr} {s t : State} (h : Effect i s t) :
    t.out = s.out ∨ ∃ r : Reg, i = .prn (regByte r) ∧ t.out = s.out ++ [s.reg r] := by
  cases h with
  | prn r => exact .inr ⟨r, rfl, rfl⟩
  | _ => exact .inl rfl

/-- In a RUNNING core HLT alone leads to HALTED (R29). -/
theorem Effect.halted_iff {i : Instr} {s t : State} (h : Effect i s t) (hs : s.status = .running) :
    t.status = .halted ↔ i = .hlt := by
  cases h with
  | hlt => simp
  | badRegister h =>
    have hi : i ≠ .hlt := by
      rintro rfl
      cases h
    simp [hi]
  | _ => simp [hs]

/-- A register that an update changes is the one written. -/
theorem State.eq_of_reg_setReg_ne {s : State} {r q : Reg} {v : Byte} (h : (s.setReg r v).reg q ≠ s.reg q) : r = q :=
  Classical.byContradiction fun hne => h (State.reg_setReg_other s v hne)

/-- A register that an effect changes is one the table of R21 lets the instruction write. -/
theorem Effect.mayWrite {i : Instr} {s t : State} {q : Reg} (h : Effect i s t) (hq : t.reg q ≠ s.reg q) :
    MayWrite i q := by
  cases h with
  | ldi r imm => exact congrArg regByte (State.eq_of_reg_setReg_ne hq)
  | mul a b => exact congrArg regByte (State.eq_of_reg_setReg_ne hq)
  | push r => exact (State.eq_of_reg_setReg_ne hq).symm
  | pop r =>
    by_cases hsp : sp = q
    · exact .inr hsp.symm
    · rw [State.advance_reg, State.reg_setReg_other _ _ hsp] at hq
      exact .inl (congrArg regByte (State.eq_of_reg_setReg_ne hq))
  | _ => exact absurd rfl hq

/-! ### The invariant -/

/-- A compare leaves exactly one flag. -/
theorem cmpFlags_oneFlag (a b : Byte) : cmpFlags a b = 0x01 ∨ cmpFlags a b = 0x02 ∨ cmpFlags a b = 0x04 := by
  obtain ⟨-, h⟩ | ⟨-, h⟩ | ⟨-, h⟩ := cmpFlags_cases a b
  · exact .inl h
  · exact .inr (.inr h)
  · exact .inr (.inl h)

theorem flLegal_cmpFlags (a b : Byte) : flLegal (cmpFlags a b) = true := by
  obtain h | h | h := cmpFlags_oneFlag a b <;> rw [h] <;> rfl

theorem Effect.keeps_inv {i : Instr} {s t : State} (h : Effect i s t) (hs : s.Inv) : t.Inv := by
  obtain ⟨hmem, hfl⟩ := hs
  constructor
  · obtain hm | ⟨a, v, hm⟩ := h.mem_cases <;> rw [hm]
    · exact hmem
    · exact State.write_wf a v hmem
  · obtain ⟨-, hf⟩ | ⟨a, b, -, hf⟩ := h.fl_cases <;> rw [hf]
    · exact hfl
    · exact flLegal_cmpFlags _ _

/-! ### Lockstep: two runs that see the same -/

/-- A relation between states that the core cannot see through: related states have the same status and fetch the same
instruction, and whatever fault or effect one has, the other has it too and the results are related. -/
structure Lockstep (R : State → State → Prop) : Prop where
  status_eq {s t : State} : R s t → t.status = s.status
  fetch_eq {s t : State} : R s t → fetchInstr t = fetchInstr s
  setStatus {s t : State} (x : Status) : R s t → R (s.setStatus x) (t.setStatus x)
  effect {i : Instr} {s s' t : State} : R s t → Effect i s s' → ∃ t', Effect i t t' ∧ R s' t'

/-- Every step of one of two related states is matched by a step of the other. -/
theorem Lockstep.match_step {R : State → State → Prop} (hR : Lockstep R) {s s' t : State} (h : R s t)
    (hstep : step s = .next s') : ∃ t', step t = .next t' ∧ R s' t' := by
  obtain ⟨hrun, hcase⟩ := step_next hstep
  have ht : t.status = .running := (hR.status_eq h).trans hrun
  obtain ⟨hf, rfl⟩ | ⟨i, hf, he⟩ := hcase
  · exact ⟨_, step_unknown ht ((hR.fetch_eq h).trans hf), hR.setStatus _ h⟩
  · obtain ⟨t', he', h'⟩ := hR.effect h (exec_next he)
    exact ⟨t', (step_running ht ((hR.fetch_eq h).trans hf)).trans he'.exec_eq, h'⟩

/-- Every run of one of two related states is matched by a run of the other of the same length. -/
theorem Lockstep.match_run {R : State → State → Prop} (hR : Lockstep R) {s s' t : State} {k : Nat} (h : R s t)
    (hrun : RunsTo s k s') : ∃ t', RunsTo t k t' ∧ R s' t' := by
  induction k generalizing s t with
  | zero =>
    obtain rfl := runsTo_zero.mp hrun
    exact ⟨t, runsTo_zero.mpr rfl, h⟩
  | succ k ih =>
    obtain ⟨u, hu, hk⟩ := runsTo_succ.mp hrun
    obtain ⟨v, hv, huv⟩ := hR.match_step h hu
    obtain ⟨t', ht', h'⟩ := ih huv hk
    exact ⟨t', runsTo_succ.mpr ⟨v, hv, ht'⟩, h'⟩

/-! ### G and L are not seen (R28) -/

/-- Of FL only bit 0 is read (R28). -/
theorem State.flagE_eq (s : State) : s.flagE = s.fl.getLsbD 0 := by
  simp [State.flagE, State.readFl, flDefined]

/-- States that agree but for G and L differ by a write of FL that keeps E. -/
theorem agreeButGL_iff {s t : State} :
    AgreeButGL s t ↔ ∃ v : Byte, v.getLsbD 0 = s.fl.getLsbD 0 ∧ t = s.setFl v := by
  constructor
  · rintro ⟨ht, hE⟩
    exact ⟨t.fl, hE, ht⟩
  · rintro ⟨v, hE, rfl⟩
    exact ⟨rfl, hE⟩

/-- An effect does not depend on G and L. A CMP makes FL the same in both states; the other effects leave the two values
of FL as they were. -/
theorem Effect.agreeButGL {i : Instr} {s s' t : State} (h : AgreeButGL s t) (he : Effect i s s') :
    ∃ t', Effect i t t' ∧ AgreeButGL s' t' := by
  obtain ⟨v, hE, rfl⟩ := agreeButGL_iff.mp h
  have hflag : (s.setFl v).flagE = s.flagE := by rw [State.flagE_eq, State.flagE_eq, State.setFl_fl, hE]
  cases he with
  | badRegister hi => exact ⟨_, .badRegister hi, rfl, hE⟩
  | ldi r imm => exact ⟨_, .ldi r imm, rfl, hE⟩
  | prn r => exact ⟨_, .prn r, rfl, hE⟩
  | hlt => exact ⟨_, .hlt, rfl, hE⟩
  | mul a b => exact ⟨_, .mul a b, rfl, hE⟩
  | pop r => exact ⟨_, .pop r, rfl, hE⟩
  | push r => exact ⟨_, .push r, rfl, hE⟩
  | cmp a b => exact ⟨_, .cmp a b, rfl, rfl⟩
  | jmp r => exact ⟨_, .jmp r, rfl, hE⟩
  | jeqTaken r hf => exact ⟨_, .jeqTaken r (hflag.trans hf), rfl, hE⟩
  | jeqNotTaken r hf => exact ⟨_, .jeqNotTaken r (hflag.trans hf), rfl, hE⟩
  | jneTaken r hf => exact ⟨_, .jneTaken r (hflag.trans hf), rfl, hE⟩
  | jneNotTaken r hf => exact ⟨_, .jneNotTaken r (hflag.trans hf), rfl, hE⟩

theorem lockstep_agreeButGL : Lockstep AgreeButGL where
  status_eq h := by
    obtain ⟨v, -, rfl⟩ := agreeButGL_iff.mp h
    rfl
  fetch_eq h := by
    obtain ⟨v, -, rfl⟩ := agreeButGL_iff.mp h
    rfl
  setStatus x h := by
    obtain ⟨v, hE, rfl⟩ := agreeButGL_iff.mp h
    exact ⟨rfl, hE⟩
  effect := Effect.agreeButGL

/-! ### Out is not read (R30) -/

/-- The state with `before` put before its output stream. -/
def State.prependOut (before : List Byte) (s : State) : State := { s with out := before ++ s.out }

/-- A byte emitted after the stream is emitted after what was put before it. -/
theorem State.emit_prependOut (before : List Byte) (s : State) (v : Byte) :
    (s.prependOut before).emit v = (s.emit v).prependOut before := by
  simp [State.prependOut, State.emit]

/-- An effect neither reads nor moves bytes put before the output stream. -/
theorem Effect.prependOut {i : Instr} {s t : State} (before : List Byte) (h : Effect i s t) :
    Effect i (s.prependOut before) (t.prependOut before) := by
  cases h with
  | badRegister hi => exact .badRegister hi
  | ldi r imm => exact .ldi r imm
  | prn r =>
    have he : Effect (.prn (regByte r)) (s.prependOut before)
        (((s.prependOut before).emit (s.reg r)).advance 2) := .prn r
    rw [State.emit_prependOut] at he
    exact he
  | hlt => exact .hlt
  | mul a b => exact .mul a b
  | pop r => exact .pop r
  | push r => exact .push r
  | cmp a b => exact .cmp a b
  | jmp r => exact .jmp r
  | jeqTaken r hf => exact .jeqTaken r hf
  | jeqNotTaken r hf => exact .jeqNotTaken r hf
  | jneTaken r hf => exact .jneTaken r hf
  | jneNotTaken r hf => exact .jneNotTaken r hf

theorem lockstep_prependOut (before : List Byte) : Lockstep fun s t => t = s.prependOut before where
  status_eq := by rintro s _ rfl; rfl
  fetch_eq := by rintro s _ rfl; rfl
  setStatus := by rintro s _ x rfl; rfl
  effect := by rintro i s s' _ rfl he; exact ⟨_, he.prependOut before, rfl⟩

end Sys2Proof.Machine

/-! ### The statements -/

namespace Sys2Proof.Proofs

open Sys2Proof.Machine Sys2Proof.Claims

/-- Settles O31: states that agree but for G and L run in lockstep. -/
theorem flagsGAndLAreUnobservable : Obligations.FlagsGAndLAreUnobservable :=
  fun _ _ h _ _ hrun => lockstep_agreeButGL.match_run h hrun

/-- Settles O32: a state and the same state with bytes put before its stream run in lockstep. -/
theorem outputIsNeverRead : Obligations.OutputIsNeverRead := by
  intro s t k before hrun
  obtain ⟨_, ht, rfl⟩ := (lockstep_prependOut before).match_run rfl hrun
  exact ht

/-- Settles O36: an unknown opcode changes status only, and an effect stores at most one byte and writes FL by a compare
only. -/
theorem stepKeepsInvariant : Obligations.StepKeepsInvariant := by
  intro s t hs hstep
  obtain ⟨-, ⟨-, rfl⟩ | ⟨i, -, he⟩⟩ := step_next hstep
  · exact hs
  · exact (exec_next he).keeps_inv hs

/-- Settles O24: a step that decodes nothing faults, and of the effects HLT's alone halts. -/
theorem onlyHltHalts : Obligations.OnlyHltHalts := by
  intro s t hstep
  obtain ⟨hrun, ⟨hf, rfl⟩ | ⟨i, hf, he⟩⟩ := step_next hstep
  · simp [hf]
  · rw [hf, Option.some.injEq]
    exact (exec_next he).halted_iff hrun

/-- Settles O27: of the effects a compare's alone writes FL, and a compare leaves exactly one flag. -/
theorem onlyCmpWritesFl : Obligations.OnlyCmpWritesFl := by
  intro i s t he
  obtain ⟨hne, hf⟩ | ⟨a, b, rfl, hf⟩ := (exec_next he).fl_cases
  · exact ⟨fun _ => hf, fun a b hi => absurd hi (hne a b)⟩
  · refine ⟨fun hne => absurd rfl (hne a b), fun _ _ _ => ?_⟩
    rw [hf]
    exact cmpFlags_oneFlag _ _

/-- Settles O29, by the case split of the effects on out. -/
theorem onlyPrnEmits : Obligations.OnlyPrnEmits :=
  fun _ _ _ he => (exec_next he).out_cases

/-- Settles O30, by the case split of the effects on a changed register. -/
theorem registersChangePerTable : Obligations.RegistersChangePerTable :=
  fun _ _ _ _ he hq => (exec_next he).mayWrite hq

/-- Settles O35: reset lists no byte of memory and sets no flag. -/
theorem resetMeetsInvariant : Obligations.ResetMeetsInvariant :=
  ⟨Memory.reset_wf, rfl⟩

end Sys2Proof.Proofs

/-! PROOFS. The statements of 20_memory.md. First an encoding in memory is what the core fetches, then what an `Effect`
stores, then what a memory in canonical form lists. -/

/-! ### An encoding in memory is fetched (R45, R46) -/

namespace Sys2Proof

/-- Operand assembly gives back an instruction from its operand bytes; a byte its format does not use is free (R67). -/
theorem Instr.withOperands_eq {i : Instr} {a b : Byte} (ha : ∀ h : 0 < i.operandBytes.length, a = i.operandBytes[0])
    (hb : ∀ h : 1 < i.operandBytes.length, b = i.operandBytes[1]) : i.op.withOperands a b = i := by
  cases i with
  | hlt => rfl
  | prn _ | pop _ | push _ | jmp _ | jeq _ | jne _ =>
    obtain rfl := ha (Nat.lt_add_one 0)
    rfl
  | ldi _ _ | mul _ _ | cmp _ _ =>
    obtain rfl := ha (Nat.zero_lt_succ 1)
    obtain rfl := hb (Nat.lt_add_one 1)
    rfl

end Sys2Proof

namespace Sys2Proof.Machine

/-- The core fetches the instruction whose encoding stands at pc, each byte at its address modulo 256. -/
theorem fetchInstr_of_encoding {s : State} {i : Instr}
    (h : ∀ (k : Nat) (hk : k < (encode i).length), s.read (s.pc + BitVec.ofNat 8 k) = (encode i)[k]) :
    fetchInstr s = some i := by
  have hop : s.read s.pc = i.op.code := by simpa [encode] using h 0 (Nat.zero_lt_succ _)
  refine decodeWindow_eq_some.mpr ⟨i.op, hop, (Instr.withOperands_eq (fun h0 => ?_) fun h1 => ?_).symm⟩
  · exact h 1 (Nat.succ_lt_succ h0)
  · exact h 2 (Nat.succ_lt_succ h1)

/-! ### What an effect stores (R43, R51) -/

/-- States with the same memory read alike. -/
theorem State.read_congr {s t : State} (h : t.mem = s.mem) (a : Byte) : t.read a = s.read a := by
  rw [State.read, h, State.read]

/-- The value PUSH stores is read after SP is decremented, so PUSH R7 stores the decremented SP (R122). -/
theorem reg_after_decrement (s : State) (r : Reg) :
    (s.setReg sp (pushAddr s)).reg r = if r = 7 then pushAddr s else s.reg r :=
  (State.reg_setReg s sp r _).trans (if_congr eq_comm rfl rfl)

/-- Memory is as before, or the instruction is a PUSH of a register and one byte is stored, at SP - 1 (R43). -/
theorem Effect.mem_push_cases {i : Instr} {s t : State} (h : Effect i s t) :
    t.mem = s.mem ∨ ∃ (r : Reg) (v : Byte), i = .push (regByte r) ∧ t.mem = (s.write (pushAddr s) v).mem := by
  cases h with
  | push r => exact .inr ⟨r, _, rfl, rfl⟩
  | _ => exact .inl rfl

/-- A PUSH of a register advances pc by 2, and one byte of memory reads as the pushed one (R122). -/
theorem exec_push_next {r : Reg} {s t : State} (h : exec (.push (regByte r)) s = .next t) :
    t.pc = s.pc + 2 ∧ ∀ a, t.read a = if a = pushAddr s then (if r = 7 then pushAddr s else s.reg r) else s.read a := by
  obtain rfl := Host.Outcome.next.inj ((execPush_regByte r s).symm.trans h)
  refine ⟨rfl, fun a => ?_⟩
  rw [State.advance_read, State.read_write, State.setReg_read, reg_after_decrement]

/-! ### What a memory in canonical form lists (R40, R33) -/

/-- A memory in canonical form from `lo` on reads as the reset byte below `lo`. -/
theorem Memory.le_of_read_ne {lo a : Nat} {m : Memory} (hm : m.wfFrom lo = true) (ha : m.read a ≠ Config.memReset) :
    lo ≤ a := by
  induction m generalizing lo with
  | nil => exact absurd rfl ha
  | cons c m ih =>
    obtain ⟨k, v⟩ := c
    obtain ⟨hlo, -, -, hm⟩ := Memory.wfFrom_cons.mp hm
    by_cases hka : k = a
    · omega
    · rw [Memory.read_cons, if_neg hka] at ha
      have := ih hm ha
      omega

/-- The first listed address reads as the byte listed with it. -/
@[simp] theorem Memory.read_head (k : Nat) (v : Byte) (m : Memory) : Memory.read ((k, v) :: m) k = v := by
  rw [Memory.read_cons, if_pos rfl]

/-- Dropping the first entry resets the byte at its address and no other. -/
theorem Memory.read_tail {k : Nat} {m : Memory} (hm : m.wfFrom (k + 1) = true) (v : Byte) (a : Nat) :
    m.read a = if a = k then Config.memReset else Memory.read ((k, v) :: m) a := by
  split
  · next ha =>
    by_contra hne
    have := Memory.le_of_read_ne hm hne
    omega
  · next ha => rw [Memory.read_cons, if_neg (Ne.symm ha)]

/-- The first address a memory lists is the least one that does not read as the reset byte, so of two memories that read
alike neither begins before the other. -/
theorem Memory.head_le {lo k l : Nat} {v w : Byte} {m n : Memory} (hm : Memory.wfFrom lo ((k, v) :: m) = true)
    (hn : Memory.wfFrom lo ((l, w) :: n) = true)
    (h : ∀ a, Memory.read ((k, v) :: m) a = Memory.read ((l, w) :: n) a) : k ≤ l := by
  obtain ⟨-, hk, hv, hmt⟩ := Memory.wfFrom_cons.mp hm
  obtain ⟨-, -, hw, -⟩ := Memory.wfFrom_cons.mp hn
  have hl : Memory.read ((k, v) :: m) l ≠ Config.memReset := by rwa [h, Memory.read_head]
  exact Memory.le_of_read_ne (Memory.wfFrom_cons.mpr ⟨le_rfl, hk, hv, hmt⟩) hl

/-- A memory that reads as the reset byte everywhere lists nothing. -/
theorem Memory.eq_nil {lo : Nat} {m : Memory} (hm : m.wfFrom lo = true) (h : ∀ a, m.read a = Config.memReset) :
    m = [] := by
  cases m with
  | nil => rfl
  | cons c m =>
    obtain ⟨k, v⟩ := c
    obtain ⟨-, -, hv, -⟩ := Memory.wfFrom_cons.mp hm
    exact absurd ((Memory.read_head k v m).symm.trans (h k)) hv

/-- Memories in canonical form that read alike are equal: their first entries are the same, and without them they still
read alike. -/
theorem Memory.eq_of_read {lo : Nat} {m n : Memory} (hm : m.wfFrom lo = true) (hn : n.wfFrom lo = true)
    (h : ∀ a, m.read a = n.read a) : m = n := by
  induction m generalizing n lo with
  | nil => exact (Memory.eq_nil hn fun a => (h a).symm).symm
  | cons c m ih =>
    cases n with
    | nil => exact Memory.eq_nil hm h
    | cons d n =>
      obtain ⟨k, v⟩ := c
      obtain ⟨l, w⟩ := d
      obtain rfl : k = l := Nat.le_antisymm (Memory.head_le hm hn h) (Memory.head_le hn hm fun a => (h a).symm)
      obtain rfl : v = w := by simpa using h k
      obtain ⟨-, -, -, hmt⟩ := Memory.wfFrom_cons.mp hm
      obtain ⟨-, -, -, hnt⟩ := Memory.wfFrom_cons.mp hn
      rw [ih hmt hnt fun a => by rw [Memory.read_tail hmt v, Memory.read_tail hnt v, h]]

end Sys2Proof.Machine

/-! ### The statements -/

namespace Sys2Proof.Proofs

open Sys2Proof.Machine Sys2Proof.Claims

/-- Settles O18: the instruction whose encoding stands at pc is the one fetched. -/
theorem encodedInstructionRuns : Obligations.EncodedInstructionRuns :=
  fun _ _ hrun h => step_running hrun (fetchInstr_of_encoding h)

/-- Settles O28, by the case split of the effects on memory. -/
theorem onlyPushWritesMemory : Obligations.OnlyPushWritesMemory := by
  intro i s t he
  obtain hm | ⟨r, v, rfl, hm⟩ := (exec_next he).mem_push_cases
  · exact ⟨fun _ => State.read_congr hm, fun a _ => State.read_congr hm a⟩
  · refine ⟨fun hne => absurd rfl (hne r), fun a ha => ?_⟩
    rw [State.read_congr hm, State.read_write, if_neg ha]

/-- Settles O34: the canonical form is the canonical form from address 0 on. -/
theorem canonicalMemoryIsUnique : Obligations.CanonicalMemoryIsUnique :=
  fun _ _ => Memory.eq_of_read

/-- Settles O38: the fetch after a PUSH reads the memory the PUSH left, at the new pc and the two addresses after it. -/
theorem fetchSeesPushedByte : Obligations.FetchSeesPushedByte := by
  intro s t r he stored seen
  obtain ⟨hpc, hread⟩ := exec_push_next he
  have hseen : t.read = seen := funext hread
  rw [fetchInstr, hseen, hpc, BitVec.add_assoc, BitVec.add_assoc]
  rfl

/-- Settles O33: the law of memory, and the fields a store does not touch. -/
theorem memWriteSetsOneByte : Obligations.MemWriteSetsOneByte := by
  intro s a v
  refine ⟨?_, fun b hb => ?_, rfl, rfl, rfl, rfl, rfl⟩
  · rw [State.read_write, if_pos rfl]
  · rw [State.read_write, if_neg hb]

end Sys2Proof.Proofs

/-! PROOFS. The statements of 30_encoding.md. First what the byte-string decoder accepts and what the window decoder
rejects, then the written form of an instruction and its reading. -/

/-! ### Operand bytes, decoder and encoder (R60 to R67) -/

namespace Sys2Proof

/-- Operand assembly reads an instruction from its operand bytes, whatever follows them (R67). -/
theorem Instr.withOperands_append (i : Instr) (rest : List Byte) :
    i.op.withOperands ((i.operandBytes ++ rest).getD 0 0) ((i.operandBytes ++ rest).getD 1 0) = i := by
  refine Instr.withOperands_eq (fun h0 => ?_) fun h1 => ?_
  · rw [List.getD_append _ _ _ _ h0, List.getD_eq_getElem _ _ h0]
  · rw [List.getD_append _ _ _ _ h1, List.getD_eq_getElem _ _ h1]

/-- The operand bytes of an assembled instruction are the bytes its format uses (R61). -/
theorem Op.operandBytes_withOperands (o : Op) (a b : Byte) :
    (o.withOperands a b).operandBytes = [a, b].take o.format.operands := by
  cases o <;> rfl

/-- A format has at most two operand bytes (R61). -/
theorem Format.operands_le_two (f : Format) : f.operands ≤ 2 := by cases f <;> decide

/-- Of a string of at least `n` bytes, `n` being at most two, the first two bytes begin with the first `n`. -/
theorem take_first_two {n : Nat} {args : List Byte} (h2 : n ≤ 2) (h : n ≤ args.length) :
    [args.getD 0 0, args.getD 1 0].take n = args.take n := by
  match n, args with
  | 0, _ => rfl
  | 1, _ :: _ => rfl
  | 2, _ :: _ :: _ => rfl

/-- All the decoder of a byte string can accept: an opcode of the table, and behind it at least the operand bytes of its
format (R60, R65). -/
theorem decode_eq_ok {bs rest : List Byte} {i : Instr} :
    decode bs = .ok (i, rest) ↔ ∃ (o : Op) (args : List Byte), bs = o.code :: args ∧
      o.format.operands ≤ args.length ∧ o.withOperands (args.getD 0 0) (args.getD 1 0) = i ∧
      args.drop o.format.operands = rest := by
  constructor
  · intro h
    unfold decode at h
    split at h
    · contradiction
    · split at h
      · contradiction
      · next b args _ o ho =>
        split at h
        · contradiction
        · next hlen =>
          obtain ⟨hi, hrest⟩ := Prod.mk.inj (Except.ok.inj h)
          exact ⟨o, args, by rw [decodeOp_eq_some.mp ho], Nat.le_of_not_lt hlen, hi, hrest⟩
  · rintro ⟨o, args, rfl, hlen, rfl, rfl⟩
    simp only [decode, decodeOp_code, if_neg (Nat.not_lt.mpr hlen)]

/-- A byte is unknown exactly when it is the opcode of no row of the table (R63, R65). -/
theorem decodeOp_eq_none {b : Byte} : decodeOp b = none ↔ b ∉ opTable.map Op.code := by
  simp [decodeOp, List.find?_eq_none]

/-- The window decoder rejects by the opcode byte alone (R82). -/
theorem decodeWindow_eq_none {op a b : Byte} : decodeWindow op a b = none ↔ decodeOp op = none :=
  Option.map_eq_none_iff

end Sys2Proof

/-! ### The written form of an instruction (R68, R69) -/

namespace Sys2Proof.Machine

/-- A digit below ten is written as one of the ten digit characters. -/
theorem digitChar_mem {n : Nat} (h : n < 10) : digitChar n ∈ digitChars := by
  rw [digitChar, List.getD_eq_getElem _ _ h]
  exact List.getElem_mem _

/-- A digit character reads as the digit it writes. -/
theorem digitIn_digitChar : ∀ n < 10, digitIn digitChars (digitChar n) = some n := by decide

/-- Appending a decimal digit to a number. -/
def snocDigit (acc d : Nat) : Nat := acc * 10 + d

/-- A byte is written as the decimal digits of its value, most significant first, at least one of them. -/
theorem decChars_eq_digits (b : Byte) : ∃ ds : List Nat, decChars b = ds.map digitChar ∧ ds ≠ [] ∧
    (∀ d ∈ ds, d < 10) ∧ ds.foldl snocDigit 0 = b.toNat := by
  have hb := b.isLt
  unfold decChars
  dsimp only
  split
  · exact ⟨[b.toNat], rfl, List.cons_ne_nil _ _, by simpa, by simp [snocDigit]⟩
  · split
    · refine ⟨[b.toNat / 10, b.toNat % 10], rfl, List.cons_ne_nil _ _, ?_, ?_⟩
      · simp; omega
      · simp [snocDigit]; omega
    · refine ⟨[b.toNat / 100, b.toNat / 10 % 10, b.toNat % 10], rfl, List.cons_ne_nil _ _, ?_, ?_⟩
      · simp; omega
      · simp [snocDigit]; omega

/-- A byte is written with digit characters only. -/
theorem decChars_subset (b : Byte) : decChars b ⊆ digitChars := by
  obtain ⟨ds, hds, -, hlt, -⟩ := decChars_eq_digits b
  rw [hds]
  intro c hc
  obtain ⟨d, hd, rfl⟩ := List.mem_map.mp hc
  exact digitChar_mem (hlt d hd)

/-- Decimal digits read as the number they write. -/
theorem digitsValue_map_digitChar {ds : List Nat} (h : ∀ d ∈ ds, d < 10) (acc : Nat) :
    digitsValue 10 (digitIn digitChars) acc (ds.map digitChar) = some (ds.foldl snocDigit acc) := by
  induction ds generalizing acc with
  | nil => rfl
  | cons d ds ih =>
    obtain ⟨hd, hds⟩ := List.forall_mem_cons.mp h
    simp only [List.map_cons, digitsValue, digitIn_digitChar d hd, if_pos hd, List.foldl_cons]
    exact ih hds _

/-- Digit characters alone are no hex or binary form: they read in base ten. -/
theorem readImm_of_subset {cs : List Char} (h : cs ⊆ digitChars) :
    readImm cs = byteIn 10 (digitIn digitChars) cs := by
  unfold readImm
  split
  · exact absurd (@h 'x' (by simp)) (by decide)
  · exact absurd (@h 'b' (by simp)) (by decide)
  · rfl

/-- The decimal form of a byte reads back as the byte. -/
theorem readImm_decChars (b : Byte) : readImm (decChars b) = some b := by
  rw [readImm_of_subset (decChars_subset b)]
  obtain ⟨ds, hds, hne, hlt, hval⟩ := decChars_eq_digits b
  have hb : b.toNat ≤ 255 := Nat.le_of_lt_succ b.isLt
  simp [byteIn, hds, hne, digitsValue_map_digitChar hlt, hval, hb]

/-- The written form of a register reads back as its field byte. -/
theorem readReg_regByte : ∀ r : Reg, readReg ('R' :: decChars (regByte r)) = some (regByte r) := by decide

/-- The register fields of a well-formed instruction have a spelling that reads back (R62, R68). -/
theorem readReg_of_wellFormed {i : Instr} (h : i.wellFormed = true) {f : Byte} (hf : f ∈ i.regFields) :
    readReg ('R' :: decChars f) = some f := by
  cases hr : regOf f with
  | some r =>
    obtain rfl := regOf_eq_some.mp hr
    exact readReg_regByte r
  | none =>
    have hbad := wellFormed_eq_false.mpr ⟨f, hf, regOf_eq_none.mp hr⟩
    rw [h] at hbad
    contradiction

/-! ### Reading a written line -/

/-- A written register holds no character but `R` and digits. -/
theorem notMem_register {c : Char} (hc : c ∉ 'R' :: digitChars) (f : Byte) : c ∉ 'R' :: decChars f :=
  fun h => hc (List.cons_subset_cons 'R' (decChars_subset f) h)

/-- What stands before the first `c` of a line. -/
theorem takeWhile_ne_append {c : Char} {xs : List Char} (h : c ∉ xs) (ys : List Char) :
    (xs ++ c :: ys).takeWhile (· != c) = xs := by
  rw [List.takeWhile_append_of_pos fun x hx => bne_iff_ne.mpr (ne_of_mem_of_not_mem hx h)]
  simp

/-- What stands from the first `c` of a line on. -/
theorem dropWhile_ne_append {c : Char} {xs : List Char} (h : c ∉ xs) (ys : List Char) :
    (xs ++ c :: ys).dropWhile (· != c) = c :: ys := by
  rw [List.dropWhile_append_of_pos fun x hx => bne_iff_ne.mpr (ne_of_mem_of_not_mem hx h)]
  simp

/-- Without a blank there is none to drop. -/
theorem dropBlank_of_notMem {cs : List Char} (h : ' ' ∉ cs) : dropBlank cs = cs := by
  unfold dropBlank
  split
  · exact absurd List.mem_cons_self h
  · rfl

/-- Two written operands read back when each does, the first holds no comma and the second no blank. -/
theorem readTwo_append {first second : List Char → Option Byte} {xs ys : List Char} {a b : Byte} (hxs : ',' ∉ xs)
    (hys : ' ' ∉ ys) (ha : first xs = some a) (hb : second ys = some b) :
    readTwo first second (xs ++ ',' :: ys) = some (a, b) := by
  simp [readTwo, takeWhile_ne_append hxs, dropWhile_ne_append hxs, dropBlank_of_notMem hys, ha, hb]

/-- No mnemonic holds a blank. -/
theorem blank_notMem_mnemonicChars (o : Op) : ' ' ∉ mnemonicChars o := by cases o <;> decide

/-- A mnemonic names one row of the opcode table (R63). -/
theorem find?_mnemonicChars (o : Op) : opTable.find? (fun p => mnemonicChars p == mnemonicChars o) = some o := by
  cases o <;> decide

/-- A mnemonic and operands after one blank: the operands are read by the mnemonic's format (R68). -/
theorem readAsm_mnemonic (o : Op) (cs : List Char) :
    readAsm (mnemonicChars o ++ ' ' :: cs) = readOperands o (some cs) := by
  have hblank := blank_notMem_mnemonicChars o
  simp only [readAsm, takeWhile_ne_append hblank, dropWhile_ne_append hblank, find?_mnemonicChars]

/-- A line of format R reads back when its register does. -/
theorem readAsm_r {o : Op} {f : Byte} {cs : List Char} (ho : o.format = .r) (hf : readReg cs = some f) :
    readAsm (mnemonicChars o ++ ' ' :: cs) = some (o.withOperands f 0) := by
  simp [readAsm_mnemonic, readOperands, ho, hf]

/-- A line of format RR reads back when its two registers do. -/
theorem readAsm_rr {o : Op} {fa fb : Byte} (ho : o.format = .rr) (ha : readReg ('R' :: decChars fa) = some fa)
    (hb : readReg ('R' :: decChars fb) = some fb) :
    readAsm (mnemonicChars o ++ ' ' :: ('R' :: decChars fa ++ ',' :: 'R' :: decChars fb)) =
      some (o.withOperands fa fb) := by
  have htwo := readTwo_append (notMem_register (by decide) fa) (notMem_register (by decide) fb) ha hb
  simp only [readAsm_mnemonic, readOperands, ho, htwo, Option.map_some]

/-- A line of format RI reads back when its register does. -/
theorem readAsm_ri {o : Op} {f imm : Byte} (ho : o.format = .ri) (hf : readReg ('R' :: decChars f) = some f) :
    readAsm (mnemonicChars o ++ ' ' :: ('R' :: decChars f ++ ',' :: decChars imm)) = some (o.withOperands f imm) := by
  have hblank : ' ' ∉ decChars imm := fun h => absurd (decChars_subset imm h) (by decide)
  have htwo := readTwo_append (notMem_register (by decide) f) hblank hf (readImm_decChars imm)
  simp only [readAsm_mnemonic, readOperands, ho, htwo, Option.map_some]

end Sys2Proof.Machine

/-! ### The statements -/

namespace Sys2Proof.Proofs

open Sys2Proof.Machine

/-- Settles O11: the operand bytes of an encoding are long enough for its format, and what follows them is the rest. -/
theorem decodeOfEncode : Obligations.DecodeOfEncode := by
  intro i rest
  have hlen := i.operandBytes_length
  refine decode_eq_ok.mpr ⟨i.op, i.operandBytes ++ rest, rfl, ?_, i.withOperands_append rest, ?_⟩
  · rw [List.length_append, hlen]
    exact Nat.le_add_right _ _
  · rw [← hlen, List.drop_left]

/-- Settles O12: what decodes is an opcode, the operand bytes of its format, and the rest. -/
theorem encodeOfDecode : Obligations.EncodeOfDecode := by
  intro bs i rest h
  obtain ⟨o, args, rfl, hlen, rfl, rfl⟩ := decode_eq_ok.mp h
  rw [encode, Op.op_withOperands, Op.operandBytes_withOperands, take_first_two o.format.operands_le_two hlen,
    List.cons_append, List.take_append_drop]

/-- Settles O13: the two bytes behind the opcode begin with the operand bytes. -/
theorem windowReadsOwnBytesOnly : Obligations.WindowReadsOwnBytesOnly := by
  intro i rest tail op a b h
  obtain ⟨hop, hargs⟩ : i.op.code = op ∧ i.operandBytes ++ rest = a :: b :: tail := List.cons.inj h
  have hi := i.withOperands_append rest
  rw [hargs] at hi
  exact decodeWindow_eq_some.mpr ⟨i.op, hop.symm, hi.symm⟩

/-- Settles O14: the ten bytes are the opcodes of the table. -/
theorem unknownOpcodesAreRejected : Obligations.UnknownOpcodesAreRejected :=
  fun _ _ _ => decodeWindow_eq_none.trans decodeOp_eq_none

/-- Settles O47: a line of each format reads back. -/
theorem assemblyReadsBack : Obligations.AssemblyReadsBack := by
  intro i h
  have hreg : ∀ f ∈ i.regFields, readReg ('R' :: decChars f) = some f := fun _ => readReg_of_wellFormed h
  cases i with
  | hlt => decide
  | prn _ | pop _ | push _ | jmp _ | jeq _ | jne _ => exact readAsm_r rfl (hreg _ List.mem_cons_self)
  | ldi _ _ => exact readAsm_ri rfl (hreg _ List.mem_cons_self)
  | mul _ _ | cmp _ _ =>
    exact readAsm_rr rfl (hreg _ List.mem_cons_self) (hreg _ (List.mem_cons_of_mem _ List.mem_cons_self))

/-- Settles O15: seven windows, computed. -/
theorem sampleWordsDecode : Obligations.SampleWordsDecode := by
  unfold Obligations.SampleWordsDecode
  decide

end Sys2Proof.Proofs

/-! PROOFS. The statements of 40_dispatcher.md. First what the core fetches after a table word is placed, then that a
RUNNING core always has a next state, then how runs end. -/

/-! ### A table word placed at pc is fetched (R81, R202) -/

namespace Sys2Proof.Machine

/-- After a table word is placed, the core fetches what the word decodes to: pc, pc + 1 and pc + 2 are three addresses
wherever pc stands (R45), so no byte of the word overwrites another. -/
theorem fetchInstr_withFetchWord (s : State) (nbits w : Nat) :
    fetchInstr (s.withFetchWord nbits w) = decodeTableWord nbits w := by
  simp [fetchInstr, decodeTableWord, State.withFetchWord, placeInstr, State.read_write]

/-! ### A step exists exactly while the core is RUNNING (R80) -/

/-- The register check answers a next state when what it goes on with does: a bad field is a next state too (R181). -/
theorem withReg_total {f : Byte} {s : State} {body : Reg → Host.Outcome State Fault Refusal}
    (h : ∀ r, ∃ t, body r = .next t) : ∃ t, withReg f s body = .next t := by
  obtain ⟨r, -, hb⟩ | ⟨-, hb⟩ := withReg_cases f s body <;> rw [hb]
  · exact h r
  · exact ⟨_, rfl⟩

/-- Every instruction answers a next state in every state. -/
theorem exec_total (i : Instr) (s : State) : ∃ t, exec i s = .next t := by
  cases i with
  | hlt => exact ⟨_, rfl⟩
  | ldi _ _ | prn _ | pop _ | push _ | jmp _ | jeq _ | jne _ => exact withReg_total fun _ => ⟨_, rfl⟩
  | mul _ _ | cmp _ _ => exact withReg_total fun _ => withReg_total fun _ => ⟨_, rfl⟩

/-- A RUNNING core has a next state, whether or not the bytes at pc decode. -/
theorem step_total {s : State} (hs : s.status = .running) : ∃ t, step s = .next t := by
  cases hf : fetchInstr s with
  | none => exact ⟨_, step_unknown hs hf⟩
  | some i =>
    obtain ⟨t, ht⟩ := exec_total i s
    exact ⟨t, (step_running hs hf).trans ht⟩

/-- A HALTED core refuses the step (log entry 2). -/
theorem step_halted {s : State} (hs : s.status = .halted) : step s = .refused .halted := by
  simp only [step, whileRunning, hs]

/-- A FAULTED core answers its fault (log entry 2). -/
theorem step_faulted {s : State} {c : Cause} (hs : s.status = .faulted c) : step s = .fault (.terminated c) := by
  simp only [step, whileRunning, hs]

/-! ### How runs end (R86) -/

/-- Runs of the same length from the same state lead to the same state. -/
theorem RunsTo.unique {s t u : State} {k : Nat} (ht : RunsTo s k t) (hu : RunsTo s k u) : t = u :=
  Host.Outcome.next.inj (ht.symm.trans hu)

/-- Two runs from the same state that have both ended are the same run, so they end in the same state. -/
theorem RunsTo.ended_unique {s t u : State} {k l : Nat} (ht : RunsTo s k t) (hu : RunsTo s l u)
    (htend : t.status ≠ .running) (huend : u.status ≠ .running) : t = u := by
  induction k generalizing s l with
  | zero =>
    obtain rfl := runsTo_zero.mp ht
    cases l with
    | zero => exact runsTo_zero.mp hu
    | succ l =>
      obtain ⟨v, hv, -⟩ := runsTo_succ.mp hu
      exact absurd (step_next hv).1 htend
  | succ k ih =>
    obtain ⟨v, hv, hk⟩ := runsTo_succ.mp ht
    cases l with
    | zero =>
      obtain rfl := runsTo_zero.mp hu
      exact absurd (step_next hv).1 huend
    | succ l =>
      obtain ⟨v', hv', hl⟩ := runsTo_succ.mp hu
      obtain rfl := Host.Outcome.next.inj (hv.symm.trans hv')
      exact ih hk hl

/-- A run that has ended does not go on forever: after as many steps it would be RUNNING. -/
theorem RunsTo.not_runsForever {s t : State} {k : Nat} (ht : RunsTo s k t) (htend : t.status ≠ .running) :
    ¬ RunsForever s := by
  intro hforever
  obtain ⟨u, hu, hurun⟩ := hforever k
  rw [ht.unique hu] at htend
  exact htend hurun

/-- A core that is RUNNING wherever its run leads runs forever, because a RUNNING core has a next state. -/
theorem runsForever_of_running {s : State} (h : ∀ k t, RunsTo s k t → t.status = .running) : RunsForever s := by
  intro k
  induction k generalizing s with
  | zero => exact ⟨s, runsTo_zero.mpr rfl, h 0 s (runsTo_zero.mpr rfl)⟩
  | succ k ih =>
    obtain ⟨u, hu⟩ := step_total (h 0 s (runsTo_zero.mpr rfl))
    obtain ⟨t, ht, htrun⟩ := ih fun l v hv => h (l + 1) v (runsTo_succ.mpr ⟨u, hu, hv⟩)
    exact ⟨t, runsTo_succ.mpr ⟨u, hu, ht⟩, htrun⟩

/-- A run completes, aborts or never ends: the status of the state where it is not RUNNING says which. -/
theorem completes_or_aborts_or_runsForever (s : State) : Completes s ∨ (∃ c, Aborts s c) ∨ RunsForever s := by
  by_cases h : ∀ k t, RunsTo s k t → t.status = .running
  · exact .inr (.inr (runsForever_of_running h))
  · push Not at h
    obtain ⟨k, t, hrun, hend⟩ := h
    cases hst : t.status with
    | running => exact absurd hst hend
    | halted => exact .inl ⟨k, t, hrun, hst⟩
    | faulted c => exact .inr (.inl ⟨c, k, t, hrun, hst⟩)

/-- A run that completes does not abort: it would end in one state with two statuses. -/
theorem Completes.safeRun {s : State} (h : Completes s) : SafeRun s := by
  rintro c ⟨l, u, hu, huc⟩
  obtain ⟨k, t, ht, hth⟩ := h
  obtain rfl := ht.ended_unique hu (by simp [hth]) (by simp [huc])
  simp [hth] at huc

/-- A run aborts by one cause. -/
theorem Aborts.cause_unique {s : State} {c d : Cause} (hc : Aborts s c) (hd : Aborts s d) : d = c := by
  obtain ⟨k, t, ht, htc⟩ := hc
  obtain ⟨l, u, hu, hud⟩ := hd
  obtain rfl := ht.ended_unique hu (by simp [htc]) (by simp [hud])
  exact Status.faulted.inj (hud.symm.trans htc)

end Sys2Proof.Machine

/-! ### The statements -/

namespace Sys2Proof.Proofs

open Sys2Proof.Machine

/-- Settles O16: the core is RUNNING after the word is placed, and fetches the word's instruction. -/
theorem tableWordRuns : Obligations.TableWordRuns :=
  fun s nbits w _ h => step_running rfl ((fetchInstr_withFetchWord s nbits w).trans h)

/-- Settles O23: only a RUNNING core has a next state, and a RUNNING core always has one. -/
theorem stepExistsIffRunning : Obligations.StepExistsIffRunning := by
  refine fun s => ⟨⟨?_, step_total⟩, step_halted, fun _ => step_faulted⟩
  rintro ⟨t, ht⟩
  exact (step_next ht).1

/-- Settles O26: a run that stops being RUNNING ends in one state, whose status names the one way it ended. -/
theorem runsEndOneWay : Obligations.RunsEndOneWay := by
  intro s
  refine ⟨completes_or_aborts_or_runsForever s, fun h => ⟨h.safeRun, ?_⟩, fun c h => ⟨?_, fun _ => h.cause_unique⟩⟩
  · obtain ⟨k, t, ht, hth⟩ := h
    exact ht.not_runsForever (by simp [hth])
  · obtain ⟨k, t, ht, htc⟩ := h
    exact ht.not_runsForever (by simp [htc])

/-- Settles O17: the window at pc is what the core fetches. -/
theorem stepRunsDecodedInstruction : Obligations.StepRunsDecodedInstruction :=
  fun _ _ hrun hdec => step_running hrun hdec

end Sys2Proof.Proofs

/-! PROOFS. The statements of 41_alu.md. First three facts that hold of every instruction (what runs at an opcode byte,
the advance, the register check), then the flags of a compare and the ALU's fault. -/

namespace Sys2Proof.Machine

open Sys2Proof.Claims

/-! ### Facts every instruction statement shares -/

/-- A step at the opcode byte of a row of the table executes that row's instruction (R81, R82). -/
theorem stepRuns_code (o : Op) : StepRuns o.code o.withOperands :=
  fun _ hrun hop => step_running hrun (decodeWindow_eq_some.mpr ⟨o, hop, rfl⟩)

/-- The advance of pc wraps at the top of memory (R25). -/
theorem advanced_advance (s : State) (n : Byte) : Advanced n.toNat s (s.advance n) :=
  BitVec.toNat_add s.pc n

/-- A register field above 7 takes BadRegister (R184). -/
theorem takesBadRegister {i : Instr} {f : Byte} (hmem : f ∈ i.regFields) (hf : 7 < f.toNat) (s : State) :
    TakesBadRegister i s :=
  exec_illFormed (wellFormed_eq_false.mpr ⟨f, hmem, hf⟩) s

/-- An instruction with two register fields takes BadRegister when either is above 7 (R83). -/
theorem takesBadRegister_two {i : Instr} {ra rb : Byte} (hfields : i.regFields = [ra, rb])
    (h : 7 < ra.toNat ∨ 7 < rb.toNat) (s : State) : TakesBadRegister i s := by
  obtain hf | hf := h
  · exact takesBadRegister (f := ra) (by simp [hfields]) hf s
  · exact takesBadRegister (f := rb) (by simp [hfields]) hf s

/-! ### The ALU -/

/-- Which flag a compare leaves, for each of the three orders (R103). -/
theorem cmpFlags_of_order (a b : Byte) :
    (a.toNat = b.toNat → cmpFlags a b = 0x01) ∧ (a.toNat < b.toNat → cmpFlags a b = 0x04) ∧
      (b.toNat < a.toNat → cmpFlags a b = 0x02) := by
  obtain ⟨horder, hflag⟩ | ⟨horder, hflag⟩ | ⟨horder, hflag⟩ := cmpFlags_cases a b
  · exact ⟨fun _ => hflag, fun _ => by omega, fun _ => by omega⟩
  · exact ⟨fun _ => by omega, fun _ => hflag, fun _ => by omega⟩
  · exact ⟨fun _ => by omega, fun _ => by omega, fun _ => hflag⟩

/-- A tag outside ADD, MUL, CMP raises UnsupportedALUOperation (R104). -/
@[simp] theorem runAlu_other (n : Nat) (a b : Reg) (s : State) :
    runAlu (.other n) a b s = raise .unsupportedAluOperation s := rfl

end Sys2Proof.Machine

/-! ### The statements -/

namespace Sys2Proof.Proofs

open Sys2Proof.Machine

/-- Settles O4: the effect of MUL on two registers is one register write and the advance. -/
theorem mulWritesLowByteOfProduct : Obligations.MulWritesLowByteOfProduct := by
  refine ⟨fun _ _ => rfl, stepRuns_code .mul, fun a b s => ?_, fun _ _ s h => takesBadRegister_two rfl h s⟩
  refine ⟨_, execMul_regByte a b s, ?_, fun q hq => ?_, advanced_advance _ 3, ⟨rfl, rfl, rfl⟩, fun _ => rfl⟩
  · rw [State.advance_reg, State.reg_setReg_same, BitVec.toNat_mul]
  · rw [State.advance_reg, State.reg_setReg_other _ _ hq.symm]

/-- Settles O5: the effect of CMP on two registers is one write of FL, by the order, and the advance. -/
theorem cmpSetsExactlyOneFlag : Obligations.CmpSetsExactlyOneFlag := by
  refine ⟨fun _ _ => rfl, stepRuns_code .cmp, fun a b s => ?_, fun _ _ s h => takesBadRegister_two rfl h s⟩
  obtain ⟨heq, hbelow, habove⟩ := cmpFlags_of_order (s.reg a) (s.reg b)
  exact ⟨_, execCmp_regByte a b s, heq, hbelow, habove, fun _ => rfl, rfl, rfl, advanced_advance _ 3, fun _ => rfl⟩

/-- Settles O40: byte addition and multiplication are modulo 256, and a compare's flag goes by the order. -/
theorem aluComputesModulo256 : Obligations.AluComputesModulo256 :=
  fun a b => ⟨⟨_, rfl, BitVec.toNat_add a b⟩, ⟨_, rfl, BitVec.toNat_mul a b⟩, ⟨_, rfl, cmpFlags_of_order a b⟩⟩

/-- Settles O41: the ALU instruction raises the fault, which writes status only. -/
theorem otherAluTagsFault : Obligations.OtherAluTagsFault :=
  ⟨rfl, rfl, runAlu_other⟩

end Sys2Proof.Proofs

/-! PROOFS. The statements of 42_load_stack.md. First the address PUSH stores to, then which registers POP and PUSH
write; what PUSH stores is `exec_push_next`. -/

namespace Sys2Proof.Machine

/-- PUSH stores one below SP, modulo 256 (R122). -/
theorem pushAddr_toNat (s : State) : ((pushAddr s).toNat : Int) = ((s.reg 7).toNat - 1) % 256 := by
  have hsub : (pushAddr s).toNat = (256 - 1 + (s.reg 7).toNat) % 256 := BitVec.toNat_sub (s.reg 7) 1
  omega

/-- A PUSH of a register leaves R7 at the address it stored to, and every other register as it was (R122). -/
theorem exec_push_reg {r : Reg} {s t : State} (h : exec (.push (regByte r)) s = .next t) :
    t.reg 7 = pushAddr s ∧ ∀ q, q ≠ 7 → t.reg q = s.reg q := by
  obtain rfl := Host.Outcome.next.inj ((execPush_regByte r s).symm.trans h)
  exact ⟨State.reg_setReg_same s sp _, fun q hq => State.reg_setReg_other s _ hq.symm⟩

/-- A POP to a register writes the byte at SP to that register, then increments what R7 holds by then: for POP R7, the
byte just loaded (R121). -/
theorem exec_pop_reg {r : Reg} {s t : State} (h : exec (.pop (regByte r)) s = .next t) :
    t.reg 7 = (if r = 7 then s.read (s.reg 7) else s.reg 7) + 1 ∧
      ∀ q, q ≠ 7 → t.reg q = if r = q then s.read (s.reg 7) else s.reg q := by
  obtain rfl := Host.Outcome.next.inj ((execPop_regByte r s).symm.trans h)
  refine ⟨?_, fun q hq => ?_⟩
  · exact (State.reg_setReg_same _ sp _).trans (congrArg (· + 1) (State.reg_setReg s r 7 _))
  · exact (State.reg_setReg_other _ _ hq.symm).trans (State.reg_setReg s r q _)

end Sys2Proof.Machine

/-! ### The statements -/

namespace Sys2Proof.Proofs

open Sys2Proof.Machine

/-- Settles O39: POP reads the byte PUSH stored, at the address where PUSH left SP, and its increment undoes the
decrement. -/
theorem pushThenPopRoundTrips : Obligations.PushThenPopRoundTrips := by
  intro s ra rb hra hrb
  obtain ⟨t, hpush⟩ := exec_total (.push (regByte ra)) s
  refine ⟨t, hpush, fun t' hsp hbyte => ?_⟩
  obtain ⟨u, hpop⟩ := exec_total (.pop (regByte rb)) t'
  obtain ⟨htsp, -⟩ := exec_push_reg hpush
  obtain ⟨-, hread⟩ := exec_push_next hpush
  obtain ⟨husp, hureg⟩ := exec_pop_reg hpop
  refine ⟨u, hpop, ?_, ?_⟩
  · calc u.reg rb = t'.read (t'.reg 7) := by rw [hureg rb hrb, if_pos rfl]
      _ = t.read (pushAddr s) := by rw [hbyte, htsp]
      _ = s.reg ra := by rw [hread, if_pos rfl, if_neg hra]
  · calc u.reg 7 = pushAddr s + 1 := by rw [husp, if_neg hrb, hsp, htsp]
      _ = s.reg 7 := BitVec.sub_add_cancel (s.reg 7) 1

/-- Settles O1: the effect of LDI is one register write and the advance. -/
theorem ldiLoadsImmediate : Obligations.LdiLoadsImmediate := by
  refine ⟨fun _ _ => rfl, stepRuns_code .ldi, fun r imm s => ?_,
    fun ra _ s h => takesBadRegister (List.mem_singleton_self ra) h s⟩
  exact ⟨_, execLdi_regByte r imm s, State.reg_setReg_same s r imm, fun q hq => State.reg_setReg_other s imm hq.symm,
    advanced_advance _ 3, ⟨rfl, rfl, rfl⟩, fun _ => rfl⟩

/-- Settles O2: POP writes its register, then R7, and nothing else but pc. -/
theorem popLoadsThenIncrementsSp : Obligations.PopLoadsThenIncrementsSp := by
  refine ⟨fun _ => rfl, stepRuns_code .pop, fun r s => ?_,
    fun ra s h => takesBadRegister (List.mem_singleton_self ra) h s⟩
  have hexec : exec (.pop (regByte r)) s = _ := execPop_regByte r s
  obtain ⟨hsp, hreg⟩ := exec_pop_reg hexec
  refine ⟨_, hexec, fun hr => ⟨?_, ?_⟩, fun hr => ?_, fun q hqr hq => ?_, advanced_advance _ 2, ⟨rfl, rfl, rfl⟩,
    fun _ => rfl⟩
  · rw [hreg r hr, if_pos rfl]
  · rw [hsp, if_neg hr]
    exact BitVec.toNat_add _ 1
  · rw [hsp, if_pos hr]
    exact BitVec.toNat_add _ 1
  · rw [hreg q hq, if_neg (Ne.symm hqr)]

/-- Settles O3: PUSH writes R7, then the byte there, and nothing else but pc. -/
theorem pushDecrementsThenStores : Obligations.PushDecrementsThenStores := by
  refine ⟨fun _ => rfl, stepRuns_code .push, fun r s => ?_,
    fun ra s h => takesBadRegister (List.mem_singleton_self ra) h s⟩
  have hexec : exec (.push (regByte r)) s = _ := execPush_regByte r s
  obtain ⟨hsp, hreg⟩ := exec_push_reg hexec
  obtain ⟨-, hread⟩ := exec_push_next hexec
  refine ⟨_, hexec, pushAddr_toNat s, hsp, fun hr => ?_, fun hr => ?_, fun a ha => ?_, hreg, advanced_advance _ 2,
    ⟨rfl, rfl, rfl⟩⟩
  · rw [hread, if_pos rfl, if_neg hr]
  · rw [hread, if_pos rfl, if_pos hr]
  · rw [hread, if_neg ha]

end Sys2Proof.Proofs

/-! PROOFS. The statements of 43_branch.md. First what a jump of the common form does, taken or not, then a state that
steps to itself. -/

namespace Sys2Proof.Machine

open Sys2Proof.Claims

/-- A jump of a register writes pc alone: x[ra] when taken, past the two bytes when not (R143). -/
theorem jumpIf_writes_pc (taken : Bool) (r : Reg) (s : State) :
    ∃ t, jumpIf taken (regByte r) s = .next t ∧ (taken = true → t.pc = s.reg r) ∧ (taken = false → Advanced 2 s t) ∧
      (∀ q, t.reg q = s.reg q) ∧ SameFlStatusOut s t ∧ SameMemory s t := by
  refine ⟨_, jumpIf_regByte taken r s, ?_⟩
  cases taken with
  | true => exact ⟨fun _ => rfl, nofun, fun _ => rfl, ⟨rfl, rfl, rfl⟩, fun _ => rfl⟩
  | false => exact ⟨nofun, fun _ => advanced_advance s 2, fun _ => rfl, ⟨rfl, rfl, rfl⟩, fun _ => rfl⟩

/-- A state that steps to itself is where every run from it leads. -/
theorem runsTo_self {s : State} (h : step s = .next s) (k : Nat) : RunsTo s k s := by
  induction k with
  | zero => exact runsTo_zero.mpr rfl
  | succ k ih => exact runsTo_succ.mpr ⟨s, h, ih⟩

/-- A jump to the address in pc leaves the state as it is. -/
theorem exec_jmp_self {s : State} {r : Reg} (h : s.reg r = s.pc) : exec (.jmp (regByte r)) s = .next s := by
  have hexec : exec (.jmp (regByte r)) s = .next (s.setPc (s.reg r)) := (Effect.jmp r).exec_eq
  rw [hexec, h]
  rfl

end Sys2Proof.Machine

/-! ### The statements -/

namespace Sys2Proof.Proofs

open Sys2Proof.Machine

/-- Settles O25: the JMP steps the state to itself. -/
theorem selfJumpNeverEnds : Obligations.SelfJumpNeverEnds := by
  intro s r hrun hop hra hself
  have hstep : step s = .next s := by
    rw [stepRuns_code .jmp s hrun hop, hra]
    exact exec_jmp_self hself
  exact runsTo_self hstep

/-- Settles O6: JMP is the jump that is always taken. -/
theorem jmpGoesToRegister : Obligations.JmpGoesToRegister := by
  refine ⟨fun _ => rfl, stepRuns_code .jmp, fun r s => ?_,
    fun ra s h => takesBadRegister (List.mem_singleton_self ra) h s⟩
  obtain ⟨t, hexec, htaken, -, hframe⟩ := jumpIf_writes_pc true r s
  exact ⟨t, hexec, htaken rfl, hframe⟩

/-- Settles O7: JEQ is the jump taken on E, which is bit 0 of FL. -/
theorem jeqJumpsWhenEqual : Obligations.JeqJumpsWhenEqual := by
  refine ⟨fun _ => rfl, stepRuns_code .jeq, fun r s => ?_,
    fun ra s h => takesBadRegister (List.mem_singleton_self ra) h s⟩
  rw [← State.flagE_eq]
  exact jumpIf_writes_pc s.flagE r s

/-- Settles O8: JNE is the jump taken on the complement of E. -/
theorem jneJumpsWhenNotEqual : Obligations.JneJumpsWhenNotEqual := by
  refine ⟨fun _ => rfl, stepRuns_code .jne, fun r s => ?_,
    fun ra s h => takesBadRegister (List.mem_singleton_self ra) h s⟩
  obtain ⟨t, hexec, htaken, hnotTaken, hframe⟩ := jumpIf_writes_pc (!s.flagE) r s
  rw [State.flagE_eq, Bool.not_eq_true'] at htaken
  rw [State.flagE_eq, Bool.not_eq_false'] at hnotTaken
  exact ⟨t, hexec, htaken, hnotTaken, hframe⟩

end Sys2Proof.Proofs

/-! PROOFS. The statements of 44_system.md. First the one fact HLT adds to its effect: the core it leaves does not step
again. -/

namespace Sys2Proof.Machine

/-- A HALTED core has no next state (R80). -/
theorem step_ne_next_of_halted {s : State} (h : s.status = .halted) (u : State) : step s ≠ .next u := by
  rw [step_halted h]
  exact nofun

end Sys2Proof.Machine

/-! ### The statements -/

namespace Sys2Proof.Proofs

open Sys2Proof.Machine

/-- Settles O9: the effect of PRN is one byte emitted and the advance. -/
theorem prnAppendsRegister : Obligations.PrnAppendsRegister := by
  refine ⟨fun _ => rfl, stepRuns_code .prn, fun r s => ?_,
    fun ra s h => takesBadRegister (List.mem_singleton_self ra) h s⟩
  exact ⟨_, execPrn_regByte r s, State.emit_out s (s.reg r), fun _ => rfl, rfl, rfl, advanced_advance _ 2, fun _ => rfl⟩

/-- Settles O10: the effect of HLT is one write of status and the advance, and the core it leaves has ended. -/
theorem hltEndsTheRun : Obligations.HltEndsTheRun := by
  refine ⟨rfl, stepRuns_code .hlt, fun s => ?_⟩
  have hexec : exec .hlt s = .next ((s.setStatus .halted).advance 1) := Effect.hlt.exec_eq
  exact ⟨_, hexec, rfl, advanced_advance _ 1, fun _ => rfl, rfl, rfl, fun _ => rfl, step_ne_next_of_halted rfl, rfl⟩

end Sys2Proof.Proofs

/-! PROOFS. The statements of 60_exceptions.md. First what an `Effect` does to status, then the moves of the host, then
the exit status and the final observation. -/

namespace Sys2Proof.Machine

/-! ### What an effect does to status (R181, R190) -/

/-- From a RUNNING core an effect ends FAULTED only as BadRegister of an ill-formed instruction, with status alone
written (R181). -/
theorem Effect.faulted {i : Instr} {s t : State} {c : Cause} (h : Effect i s t) (hs : s.status = .running)
    (ht : t.status = .faulted c) :
    c = .badRegister ∧ i.wellFormed = false ∧ t = s.setStatus (.faulted .badRegister) := by
  cases h with
  | badRegister hi => exact ⟨(Status.faulted.inj ht).symm, hi, rfl⟩
  | hlt => cases ht
  | _ => cases hs.symm.trans ht

/-- Of the effects of well-formed instructions HLT's alone writes status (R190). -/
theorem Effect.status_of_wellFormed {i : Instr} {s t : State} (h : Effect i s t) (hi : i.wellFormed = true) :
    (i = .hlt → t.status = .halted) ∧ (i ≠ .hlt → t.status = s.status) := by
  cases h with
  | badRegister hbad => cases hi.symm.trans hbad
  | hlt => exact ⟨fun _ => rfl, fun hne => absurd rfl hne⟩
  | _ => exact ⟨nofun, fun _ => rfl⟩

/-! ### The moves of the host (R194, R204) -/

/-- A load is turned away after the first step. -/
theorem hostMove_load_stepped {h : Session} (hstep : h.stepped = true) (image : List Byte) :
    hostMove (.load image) h = .error .loadAfterStep := by
  simp [hostMove, hstep]

/-- An image of at most 256 bytes is loaded (R202). -/
theorem load_of_le {image : List Byte} (hlen : image.length ≤ 256) (s : State) :
    load image s = .ok { s with mem := s.mem.writeAll 0 image } :=
  if_pos hlen

/-- A longer image is a LoadFailure (R204). -/
theorem load_of_gt {image : List Byte} (hlen : 256 < image.length) (s : State) :
    load image s = .error (.imageTooLong image.length) :=
  if_neg (Nat.not_le.mpr hlen)

/-- Before the first step the host's load of an image that loads leaves the loaded core. -/
theorem hostMove_load_ok {h : Session} {image : List Byte} {s : State} (hstep : h.stepped = false)
    (hload : load image h.core = .ok s) : hostMove (.load image) h = .ok ⟨s, false⟩ := by
  simp [hostMove, hstep, hload]

/-- Before the first step the host's load of an image that does not load reports the LoadFailure. -/
theorem hostMove_load_error {h : Session} {image : List Byte} {f : LoadFailure} (hstep : h.stepped = false)
    (hload : load image h.core = .error f) : hostMove (.load image) h = .error (.loadFailure f) := by
  simp [hostMove, hstep, hload]

theorem hostMove_step_next {h : Session} {s : State} (hs : step h.core = .next s) :
    hostMove .step h = .ok ⟨s, true⟩ := by
  simp [hostMove, hs]

theorem hostMove_step_fault {h : Session} {f : Fault} (hs : step h.core = .fault f) :
    hostMove .step h = .error (.stopped f) := by
  simp [hostMove, hs]

theorem hostMove_step_refused {h : Session} {r : Refusal} (hs : step h.core = .refused r) :
    hostMove .step h = .error (.refused r) := by
  simp [hostMove, hs]

/-- The host's step is carried out exactly when the core's step has a next state. -/
theorem hostMove_step_ok_iff (h : Session) : (∃ h', hostMove .step h = .ok h') ↔ ∃ s, step h.core = .next s := by
  cases hs : step h.core with
  | next s => simp [hostMove_step_next hs]
  | fault f => simp [hostMove_step_fault hs]
  | refused r => simp [hostMove_step_refused hs]

/-! ### Exit status and final observation (R195, R209) -/

theorem Status.exitStatus_eq_none {x : Status} : x.exitStatus = none ↔ x = .running := by
  cases x <;> simp [Status.exitStatus]

theorem Status.exitStatus_eq_zero {x : Status} : x.exitStatus = some 0 ↔ x = .halted := by
  cases x <;> simp [Status.exitStatus]

theorem Status.exitStatus_eq_one {x : Status} : x.exitStatus = some 1 ↔ ∃ c, x = .faulted c := by
  cases x <;> simp [Status.exitStatus]

/-- The final observation is the whole state once the run has ended, and there is none before (R209). -/
theorem State.finalObservation_eq_some {s : State} : s.finalObservation = some s ↔ s.status ≠ .running := by
  simp [State.finalObservation, State.ended]

end Sys2Proof.Machine

/-! ### The statements -/

namespace Sys2Proof.Proofs

open Sys2Proof.Machine

/-- Settles O21: a step that decodes nothing raises UnknownOpcode, and the only effect that ends FAULTED is
BadRegister's. -/
theorem faultsArePrecise : Obligations.FaultsArePrecise := by
  intro s t c hstep ht
  obtain ⟨hrun, ⟨hf, rfl⟩ | ⟨i, hf, he⟩⟩ := step_next hstep
  · obtain rfl := Status.faulted.inj ht
    exact ⟨rfl, .inl ⟨rfl, hf⟩⟩
  · obtain ⟨rfl, hi, rfl⟩ := (exec_next he).faulted hrun ht
    exact ⟨rfl, .inr ⟨rfl, i, hf, hi⟩⟩

/-- Settles O22: every instruction has a next state, and the effect that leads there says its status. -/
theorem wellFormedInstructionsComplete : Obligations.WellFormedInstructionsComplete := by
  intro i s hi
  obtain ⟨t, ht⟩ := exec_total i s
  exact ⟨t, ht, (exec_next ht).status_of_wellFormed hi⟩

/-- Settles O19: the opcode byte alone makes the fetch decode nothing (O14), and raising the fault writes status
only. -/
theorem unknownOpcodeFaults : Obligations.UnknownOpcodeFaults := by
  intro s hrun hop
  have hf : fetchInstr s = none := (unknownOpcodesAreRejected _ _ _).mpr hop
  exact ⟨_, step_unknown hrun hf, rfl, rfl, rfl, rfl, rfl⟩

/-- Settles O20: an instruction with a register field above 7 is ill-formed. -/
theorem badRegisterFaults : Obligations.BadRegisterFaults :=
  ⟨rfl, fun _ s h => exec_illFormed (wellFormed_eq_false.mpr h) s⟩

/-- Settles O44: a load goes by the step bit, then by the length; a step goes by what the core's step answers, which is
a next state exactly while RUNNING (O23). -/
theorem hostMovesWhenAllowed : Obligations.HostMovesWhenAllowed := by
  intro h image
  refine ⟨fun hstep => hostMove_load_stepped hstep image, fun hstep hlen => ?_, fun hstep hlen => ?_,
    (hostMove_step_ok_iff h).trans (stepExistsIffRunning h.core).1,
    fun _ => hostMove_step_next, fun _ => hostMove_step_fault, fun _ => hostMove_step_refused⟩
  · have hload := load_of_le hlen h.core
    exact ⟨_, hostMove_load_ok hstep hload, hload⟩
  · exact hostMove_load_error hstep (load_of_gt hlen h.core)

/-- Settles O45: each status has its exit status, and a step exists exactly while RUNNING (O23). -/
theorem endedRunsHaveAnExitStatus : Obligations.EndedRunsHaveAnExitStatus :=
  fun s => ⟨Status.exitStatus_eq_none.trans (stepExistsIffRunning s).1.symm, Status.exitStatus_eq_zero,
    Status.exitStatus_eq_one, State.finalObservation_eq_some⟩

end Sys2Proof.Proofs

/-! PROOFS. The statements of 70_reset_and_hazards.md. First what a load stores, then what a line of a program file
holds, then the image of a file. -/

/-! ### A load of an image (R200, R202) -/

namespace Sys2Proof.Machine

open Sys2Proof.Claims

/-- Every register reads 0 after reset (R33). -/
theorem State.reset_reg : ∀ r : Reg, State.reset.reg r = 0x00 := by decide

/-- A run of stores changes no byte outside its addresses (R42). -/
theorem Memory.read_writeAll_other (m : Memory) {a c : Nat} {bs : List Byte} (hc : c < a ∨ a + bs.length ≤ c) :
    (m.writeAll a bs).read c = m.read c := by
  induction bs generalizing m a with
  | nil => rfl
  | cons b bs ih =>
    rw [List.length_cons] at hc
    rw [Memory.writeAll, ih (m.write a b) (by omega), Memory.read_write, if_neg (by omega)]

/-- The byte `i` of a run of stores is read back (R42). -/
theorem Memory.read_writeAll_add (m : Memory) (a : Nat) {bs : List Byte} {i : Nat} (hi : i < bs.length) :
    (m.writeAll a bs).read (a + i) = bs[i] := by
  induction bs generalizing m a i with
  | nil => cases hi
  | cons b bs ih =>
    rw [Memory.writeAll]
    cases i with
    | zero => simp [Memory.read_writeAll_other, Memory.read_write]
    | succ i =>
      have hi' : i < bs.length := Nat.lt_of_succ_lt_succ hi
      have haddr : a + (i + 1) = a + 1 + i := by omega
      rw [haddr, ih (m.write a b) (a + 1) hi', List.getElem_cons_succ]

/-- All a load that succeeds can do: the image fits and memory alone is written (R202). -/
theorem load_ok {image : List Byte} {s t : State} (h : load image s = .ok t) :
    image.length ≤ Config.memSize ∧ t = { s with mem := s.mem.writeAll 0 image } := by
  rcases Nat.lt_or_ge Config.memSize image.length with hlen | hlen
  · cases (load_of_gt hlen s).symm.trans h
  · exact ⟨hlen, (Except.ok.inj ((load_of_le hlen s).symm.trans h)).symm⟩

/-! ### The body of a line (R203) -/

/-- A blank is no hash, so white space starts no comment. -/
theorem hash_notMem_blanks {blanks : List Char} (h : ∀ c ∈ blanks, isBlank c = true) : '#' ∉ blanks :=
  fun hmem => absurd (h '#' hmem) (by decide)

/-- Without a comment the body is the line without the white space at its end. -/
theorem lineBody_of_hash_notMem {l : List Char} (h : '#' ∉ l) : lineBody l = l.rdropWhile isBlank := by
  have htake : l.takeWhile (· != '#') = l :=
    List.takeWhile_eq_self_iff.mpr fun _ hc => bne_iff_ne.mpr (ne_of_mem_of_not_mem hc h)
  rw [lineBody, htake, List.rdropWhile]

/-- A comment is no part of the body. -/
theorem lineBody_append_comment {l : List Char} (h : '#' ∉ l) (comment : List Char) :
    lineBody (l ++ '#' :: comment) = lineBody l := by
  rw [lineBody_of_hash_notMem h, lineBody, takeWhile_ne_append h, List.rdropWhile]

/-- White space at the end is no part of the body: a line with a comment ends in it, another ends in blanks to drop. -/
theorem lineBody_append_blanks (l : List Char) {blanks : List Char} (h : ∀ c ∈ blanks, isBlank c = true) :
    lineBody (l ++ blanks) = lineBody l := by
  by_cases hl : '#' ∈ l
  · obtain ⟨xs, ys, rfl, hxs⟩ := List.eq_append_cons_of_mem hl
    rw [List.append_assoc, List.cons_append, lineBody_append_comment hxs, lineBody_append_comment hxs]
  · have happ : '#' ∉ l ++ blanks := by simp [hl, hash_notMem_blanks h]
    rw [lineBody_of_hash_notMem hl, lineBody_of_hash_notMem happ, List.rdropWhile, List.reverse_append,
      List.dropWhile_append_of_pos fun c hc => h c (List.mem_reverse.mp hc), List.rdropWhile]

/-! ### The byte of a line (R203) -/

/-- The body alone tells the byte of a line. -/
theorem lineByte_congr {l l' : List Char} (h : lineBody l = lineBody l') : lineByte l = lineByte l' := by
  simp only [lineByte, h]

theorem lineByte_append_blanks (l : List Char) {blanks : List Char} (h : ∀ c ∈ blanks, isBlank c = true) :
    lineByte (l ++ blanks) = lineByte l :=
  lineByte_congr (lineBody_append_blanks l h)

theorem lineByte_append_comment {l blanks : List Char} (comment : List Char) (hl : '#' ∉ l)
    (h : ∀ c ∈ blanks, isBlank c = true) : lineByte (l ++ blanks ++ '#' :: comment) = lineByte l := by
  have happ : '#' ∉ l ++ blanks := by simp [hl, hash_notMem_blanks h]
  exact (lineByte_congr (lineBody_append_comment happ comment)).trans (lineByte_append_blanks l h)

/-- The lowest `k` bits of a byte as binary digits, most significant first. -/
def lowDigits (b : Byte) : Nat → List Char
  | 0 => []
  | k + 1 => (if b.getLsbD k then '1' else '0') :: lowDigits b k

/-- The eight digits of a byte are those of its lowest eight bits. -/
theorem binaryDigits_eq_lowDigits (b : Byte) : binaryDigits b = lowDigits b 8 := rfl

theorem length_lowDigits (b : Byte) (k : Nat) : (lowDigits b k).length = k := by
  induction k with
  | zero => rfl
  | succ k ih => rw [lowDigits, List.length_cons, ih]

/-- The digits of the lowest `k` bits have the value of those bits: the first digit stands for bit `k - 1`. -/
theorem binValue_lowDigits (b : Byte) (k : Nat) : binValue (lowDigits b k) = some (b.toNat % 2 ^ k) := by
  induction k with
  | zero => simp [lowDigits, binValue, Nat.mod_one]
  | succ k ih =>
    rw [lowDigits, Nat.mod_pow_succ, ← Nat.toNat_testBit, BitVec.testBit_toNat]
    cases b.getLsbD k <;> simp [binValue, ih, length_lowDigits, Nat.add_comm]

theorem mem_binaryDigits {b : Byte} {c : Char} (h : c ∈ binaryDigits b) : c = '0' ∨ c = '1' := by
  obtain ⟨k, -, rfl⟩ := List.mem_map.mp h
  cases b.getLsbD k
  · exact .inl rfl
  · exact .inr rfl

theorem hash_notMem_binaryDigits (b : Byte) : '#' ∉ binaryDigits b :=
  fun h => absurd (mem_binaryDigits h) (by decide)

/-- The digits of a byte are a body of their own: they hold no comment and no white space. -/
theorem lineBody_binaryDigits (b : Byte) : lineBody (binaryDigits b) = binaryDigits b := by
  rw [lineBody_of_hash_notMem (hash_notMem_binaryDigits b), List.rdropWhile_eq_self_iff]
  intro hne
  obtain h | h := mem_binaryDigits (List.getLast_mem hne) <;> rw [h] <;> decide

/-- Eight binary digits are read as the byte they are written from. -/
theorem lineByte_binaryDigits (b : Byte) : lineByte (binaryDigits b) = some (some b) := by
  have hlen : (binaryDigits b).length = 8 := length_lowDigits b 8
  have hne : (binaryDigits b).isEmpty = false := rfl
  have hval : binValue (binaryDigits b) = some b.toNat := by
    rw [binaryDigits_eq_lowDigits, binValue_lowDigits, Nat.mod_eq_of_lt b.isLt]
  simp [lineByte, lineBody_binaryDigits, hne, hlen, hval]

/-! ### The image of a file (R203) -/

theorem imageFrom_malformed {l : List Char} (h : lineByte l = none) (n : Nat) (ls : List (List Char)) :
    imageFrom n (l :: ls) = .error (.malformedLine n) := by
  simp [imageFrom, h]

theorem imageFrom_skipped {l : List Char} (h : lineByte l = some none) (n : Nat) (ls : List (List Char)) :
    imageFrom n (l :: ls) = imageFrom (n + 1) ls := by
  simp [imageFrom, h]

/-- A line with a byte puts it before the image of the later lines. -/
theorem imageFrom_byte {l : List Char} {b : Byte} (h : lineByte l = some (some b)) {n : Nat} {ls : List (List Char)}
    {image : List Byte} :
    imageFrom n (l :: ls) = .ok image ↔ ∃ bs, imageFrom (n + 1) ls = .ok bs ∧ b :: bs = image := by
  cases hrest : imageFrom (n + 1) ls <;> simp [imageFrom, h, hrest]

/-- All the loader can read: a file has an image exactly when it has no malformed line, and then the image is the bytes
of its lines that are not skipped, in order. -/
theorem imageFrom_eq_ok {n : Nat} {ls : List (List Char)} {image : List Byte} :
    imageFrom n ls = .ok image ↔
      (∀ l ∈ ls, lineByte l ≠ none) ∧ ls.filterMap (fun l => (lineByte l).join) = image := by
  induction ls generalizing n image with
  | nil => simp [imageFrom]
  | cons l ls ih =>
    rcases hl : lineByte l with _ | _ | b
    · simp [imageFrom_malformed hl, hl]
    · simp [imageFrom_skipped hl, hl, ih]
    · simp [imageFrom_byte hl, hl, ih, and_assoc]

/-- A file each of whose lines gives a byte has the image of those bytes. -/
theorem imageFrom_map {α : Type} {rows : List α} {line : α → List Char} {byte : α → Byte}
    (h : ∀ r ∈ rows, lineByte (line r) = some (some (byte r))) (n : Nat) :
    imageFrom n (rows.map line) = .ok (rows.map byte) := by
  induction rows generalizing n with
  | nil => rfl
  | cons r rows ih =>
    obtain ⟨hr, hrows⟩ := List.forall_mem_cons.mp h
    exact (imageFrom_byte hr).mpr ⟨_, ih hrows (n + 1), rfl⟩

/-- A skipped line anywhere in a file does not change its image. -/
theorem imageFrom_append_skipped {n : Nat} {before after : List (List Char)} {l : List Char} {image : List Byte}
    (h : lineByte l = some none) :
    imageFrom n (before ++ l :: after) = .ok image ↔ imageFrom n (before ++ after) = .ok image := by
  simp [imageFrom_eq_ok, or_imp, forall_and, h]

end Sys2Proof.Machine

/-! ### The statements -/

namespace Sys2Proof.Proofs

open Sys2Proof.Machine Sys2Proof.Claims

/-- Settles O42: reset answers the one reset state, whatever the session was. -/
theorem resetSetsEverything : Obligations.ResetSetsEverything :=
  fun _ => ⟨State.reset, rfl, State.reset_reg, rfl, rfl, rfl, fun _ => rfl, rfl⟩

/-- Settles O37: a load that succeeds writes memory alone, and an image that fits keeps the canonical form. -/
theorem loadKeepsInvariant : Obligations.LoadKeepsInvariant := by
  intro image s t ⟨hmem, hfl⟩ hload
  obtain ⟨hlen, rfl⟩ := load_ok hload
  exact ⟨Memory.writeAll_wf image hmem (by omega), hfl⟩

/-- Settles O43: the load is one run of stores from address 0 on over reset memory, which reads 0 everywhere. -/
theorem loadPlacesTheImage : Obligations.LoadPlacesTheImage := by
  intro image
  refine ⟨fun hlen => ⟨_, load_of_le hlen State.reset, fun a ha => ?_, fun a ha => ?_, rfl, rfl, rfl, rfl, rfl⟩,
    fun hlen => load_of_gt hlen State.reset⟩
  · have hread := Memory.read_writeAll_add State.reset.mem 0 ha
    rwa [Nat.zero_add] at hread
  · exact Memory.read_writeAll_other State.reset.mem (.inr (by omega))

/-- Settles O46: the byte of a line goes by its body, which blanks and a comment at the end do not change, and the image
of a file goes by the bytes of its lines. -/
theorem loaderReadsTheFormat : Obligations.LoaderReadsTheFormat := by
  refine ⟨lineByte_binaryDigits, fun l blanks comment hl h => ?_, fun l blanks h => ?_, fun blanks h => ?_,
    fun blanks comment h => ?_, fun n bs => ?_, fun n rows h => ?_, fun n ls h => ?_,
    fun n before after l image h => ?_⟩
  · exact lineByte_append_comment comment hl h
  · exact lineByte_append_blanks l h
  · exact lineByte_append_blanks [] h
  · exact lineByte_append_comment comment List.not_mem_nil h
  · have hbytes := imageFrom_map (byte := id) (fun b (_ : b ∈ bs) => lineByte_binaryDigits b) n
    rwa [List.map_id] at hbytes
  · refine imageFrom_map (fun r hr => ?_) n
    exact (lineByte_append_comment r.2.2 (hash_notMem_binaryDigits r.1) (h r hr)).trans (lineByte_binaryDigits r.1)
  · exact imageFrom_eq_ok.mpr ⟨h, rfl⟩
  · exact imageFrom_append_skipped h

end Sys2Proof.Proofs
